-- ==== Sys2Proof/Word.lean ====
section
/-! DEFINITION. The widths of the controller's data path (spec/20_memory.md R58, R60; decision D4). -/

namespace Sys2Proof

/-- A byte of memory, a port value, a port number: 8 bits (00_scope.md, fixed widths; decision D4). -/
abbrev Byte := BitVec 8

/-- An address on the bus, the cursor, the switch word: 16 bits (decision D4). -/
abbrev Addr := BitVec 16

/-- A text: a finite list of characters (30_encoding.md R82; the debug sinks of 10_state.md R36). -/
abbrev Text := List Char

end Sys2Proof
end

