-- ==== Sys2Proof/Syntax.lean ====
section
/-! DEFINITION. The requests an agent can make (spec/30_encoding.md R80 to R84), the operations they stand
for (one constructor a row of spec/opcode_table.json), and the events of a session (R89). -/

namespace Sys2Proof

/-- The operations of the controller. -/
inductive Instr where
  /-- powerOn(), 43_front_panel.md R140 -/
  | pwron
  /-- powerOff(), R141 -/
  | pwroff
  /-- reset(), R142 -/
  | reset
  /-- start(), R143: the RUN command -/
  | run
  /-- stop(), R144 -/
  | stop
  /-- singleStep(), R145 -/
  | step
  /-- examine(), R146 -/
  | exam
  /-- examineNext(), R147 -/
  | examnxt
  /-- deposit(), R148 -/
  | dep
  /-- depositNext(), R149 -/
  | depnxt
  /-- loadData(address, bytes), 44_bulk_load.md R160 -/
  | load (laddr : Addr) (bytes : List Byte)
  /-- loadDataAsHexString(address, text), 44_bulk_load.md R162 -/
  | loadhex (laddr : Addr) (text : Text)
  /-- readMemory(addr) -> val, 41_bus_adapter.md R120 -/
  | memr (addr : Addr)
  /-- writeMemory(addr, val), R121 -/
  | memw (addr : Addr) (val : Byte)
  /-- readPort(port) -> val, R122 -/
  | ior (port : Byte)
  /-- writePort(port, val), R123 -/
  | iow (port : Byte) (val : Byte)
  /-- the scheduler's tick, 42_scheduler.md R133 -/
  | tick
  /-- the reserved command codes, 30_encoding.md R87 -/
  | reserved0
  | reservedD
  | reservedE
  | reservedF
  deriving DecidableEq, Repr

/-- The out-of-band payload of a loader command (30_encoding.md R82). -/
inductive Payload where
  | absent
  | bytes (bs : List Byte)
  | text (t : Text)
  deriving DecidableEq, Repr

/-- The four request formats (30_encoding.md R80). -/
inductive Request where
  /-- format C: `cmd[3:0]` (R81) -/
  | c (cmd : BitVec 4)
  /-- format CL: `cmd[3:0]`, `laddr[15:0]` and a payload (R82) -/
  | cl (header : BitVec 20) (payload : Payload)
  /-- format B: `t[1:0]`, `addr[15:0]`, `data[7:0]` (R83) -/
  | b (word : BitVec 26)
  /-- format T: `req` (R84) -/
  | t (req : BitVec 1)
  deriving DecidableEq, Repr

/-- Why a request decodes to no operation: it is none of the requests R80 to R84 describe. -/
inductive DecodeError where
  /-- a loader code 0xB or 0xC in a request without a payload (R82, R88) -/
  | payloadAbsent
  /-- LOAD carries a text instead of a list of bytes (R82) -/
  | payloadNotBytes
  /-- LOADHEX carries a list of bytes instead of a text (R82) -/
  | payloadNotText
  /-- `req = 0`: the scheduler makes no request (R84) -/
  | tickNotRequested
  deriving DecidableEq, Repr

/-- One event of a session (30_encoding.md R89): a request, or the environment setting the switch word
(10_state.md R30). A request `t 1` is the script's `TICK`: "the pending tick fires now". -/
inductive Input where
  | request (r : Request)
  | switches (w : Addr)
  deriving DecidableEq, Repr

end Sys2Proof
end

