-- ==== Sys2Proof/WellFormed.lean ====
section
/-! DEFINITION. Which requests are those of spec/30_encoding.md R80 to R88, and which events can come from
outside the controller (spec/00_scope.md R9). An `Instr` needs no check: each operand is a bit vector of
its field's own width or a finite list, so every term of `Instr` is an operation some request encodes. -/

namespace Sys2Proof

/-- "A command whose `cmd` is 0xB or 0xC is format CL; every other `cmd` is format C" (30_encoding.md R88). -/
def isLoaderCode (cmd : BitVec 4) : Bool :=
  cmd == 0xB#4 || cmd == 0xC#4

/-- A request has the form R80 to R84 and R88 give it: a format C word holds no loader code; a format CL
header holds one, with the payload of its command; a tick request is asserted. -/
def Request.wellFormed : Request → Bool
  | .c cmd => !isLoaderCode cmd
  | .cl header (.bytes _) => header.extractLsb' 16 4 == 0xB#4
  | .cl header (.text _) => header.extractLsb' 16 4 == 0xC#4
  | .cl _ .absent => false
  | .b _ => true
  | .t req => req == 1#1

/-- The bus transactions of format B come from the engine only, inside `EngineStep` (00_scope.md R9). -/
def Request.fromEngine : Request → Bool
  | .b _ => true
  | _ => false

/-- An event the outside world can deliver between two atomic operations (00_scope.md R8, R9): a switch
change, or a well-formed request that is not a bus transaction. -/
def Input.wellFormed : Input → Bool
  | .switches _ => true
  | .request r => r.wellFormed && !r.fromEngine

end Sys2Proof
end

