-- ==== Sys2Proof/Decode.lean ====
section
/-! DEFINITION. The decoder of spec/30_encoding.md R91, total on every request, and the encoder written from
the tables of R81 to R84. Every rejection has a name (`DecodeError`). -/

namespace Sys2Proof

/-- `DecodeCommand(cmd, laddr, payload)` (30_encoding.md R91). -/
def decodeCommand (cmd : BitVec 4) (laddr : Addr) (payload : Payload) : Except DecodeError Instr :=
  match cmd.toNat with
  | 0x0 => .ok .reserved0
  | 0x1 => .ok .pwron
  | 0x2 => .ok .pwroff
  | 0x3 => .ok .reset
  | 0x4 => .ok .run
  | 0x5 => .ok .stop
  | 0x6 => .ok .step
  | 0x7 => .ok .exam
  | 0x8 => .ok .examnxt
  | 0x9 => .ok .dep
  | 0xA => .ok .depnxt
  | 0xB =>
    match payload with
    | .bytes bs => .ok (.load laddr bs)
    | .text _ => .error .payloadNotBytes
    | .absent => .error .payloadAbsent
  | 0xC =>
    match payload with
    | .text t => .ok (.loadhex laddr t)
    | .bytes _ => .error .payloadNotText
    | .absent => .error .payloadAbsent
  | 0xD => .ok .reservedD
  | 0xE => .ok .reservedE
  | _ => .ok .reservedF

/-- `t = word[25:24]` (30_encoding.md R83). -/
def busType (word : BitVec 26) : BitVec 2 := word.extractLsb' 24 2

/-- `addr = word[23:8]`. -/
def busAddr (word : BitVec 26) : Addr := word.extractLsb' 8 16

/-- The port number `addr[7:0]`, word bits 15..8; `addr[15:8]` is ignored. -/
def busPort (word : BitVec 26) : Byte := word.extractLsb' 8 8

/-- `data = word[7:0]`. -/
def busData (word : BitVec 26) : Byte := word.extractLsb' 0 8

/-- `DecodeBus(word)` (30_encoding.md R91). -/
def decodeBus (word : BitVec 26) : Instr :=
  match (busType word).toNat with
  | 0 => .memr (busAddr word)
  | 1 => .memw (busAddr word) (busData word)
  | 2 => .ior (busPort word)
  | _ => .iow (busPort word) (busData word)

/-- The decoder: "the decoder looks at `cmd` alone (format C and CL) or `t` alone (format B)" (R88). -/
def decode : Request → Except DecodeError Instr
  | .c cmd => decodeCommand cmd 0 .absent
  | .cl header payload => decodeCommand (header.extractLsb' 16 4) (header.extractLsb' 0 16) payload
  | .b word => .ok (decodeBus word)
  | .t req => if req = 1 then .ok .tick else .error .tickNotRequested

/-! ### The encoder -/

/-- The header word of format CL (30_encoding.md R82). -/
def clHeader (cmd : BitVec 4) (laddr : Addr) : BitVec 20 := cmd ++ laddr

/-- The word of format B (30_encoding.md R83). -/
def busWord (t : BitVec 2) (addr : Addr) (data : Byte) : BitVec 26 := t ++ addr ++ data

/-- The request that stands for an operation; the bits R83 ignores are 0. -/
def encode : Instr → Request
  | .reserved0 => .c 0x0#4
  | .pwron => .c 0x1#4
  | .pwroff => .c 0x2#4
  | .reset => .c 0x3#4
  | .run => .c 0x4#4
  | .stop => .c 0x5#4
  | .step => .c 0x6#4
  | .exam => .c 0x7#4
  | .examnxt => .c 0x8#4
  | .dep => .c 0x9#4
  | .depnxt => .c 0xA#4
  | .load laddr bytes => .cl (clHeader 0xB#4 laddr) (.bytes bytes)
  | .loadhex laddr text => .cl (clHeader 0xC#4 laddr) (.text text)
  | .reservedD => .c 0xD#4
  | .reservedE => .c 0xE#4
  | .reservedF => .c 0xF#4
  | .memr addr => .b (busWord 0b00#2 addr 0)
  | .memw addr val => .b (busWord 0b01#2 addr val)
  | .ior port => .b (busWord 0b10#2 (port.zeroExtend 16) 0)
  | .iow port val => .b (busWord 0b11#2 (port.zeroExtend 16) val)
  | .tick => .t 1#1

/-! ### Words numbered as spec/opcode_table.json numbers them -/

/-- The payload a bare table header carries: the empty list or the empty text (the table gives the payload
no bits). -/
def emptyPayload (cmd : BitVec 4) : Payload :=
  if cmd = 0xB#4 then .bytes [] else if cmd = 0xC#4 then .text [] else .absent

/-- The request of a table word: 1 bit is format T, 4 bits (or the byte that holds them) format C, 20 bits
(24) format CL, 26 bits (32) format B. Bits above the format's width must be 0. An 8-bit word is format C, so
that the table's TICK row is reached with 1 bit only: DESIGN CHOICE (log 3). Safe. -/
def tableRequest (nbits w : Nat) : Option Request :=
  if nbits = 1 then
    if w < 2 then some (.t (BitVec.ofNat 1 w)) else none
  else if nbits = 4 ∨ nbits = 8 then
    if w < 16 then some (.c (BitVec.ofNat 4 w)) else none
  else if nbits = 20 ∨ nbits = 24 then
    if w < 1048576 then some (.cl (BitVec.ofNat 20 w) (emptyPayload ((BitVec.ofNat 20 w).extractLsb' 16 4))) else none
  else if nbits = 26 ∨ nbits = 32 then
    if w < 67108864 then some (.b (BitVec.ofNat 26 w)) else none
  else none

/-- The operation the decoder reads from a table word. -/
def decodeTableWord (nbits w : Nat) : Option Instr :=
  match tableRequest nbits w with
  | none => none
  | some r =>
    match decode r with
    | .ok i => some i
    | .error _ => none

end Sys2Proof
end

