-- ==== Sys2Proof/Config.lean ====
section
/-! DEFINITION. The implementation parameters (spec/00_scope.md R5), the execution engine as the controller
sees it (10_state.md R31, R33), and the free values. The opaque constants have no body: nothing can be proved of their values.
A free value or an open parameter is written as one (assumption log 4, 5, 9, 12). -/

namespace Sys2Proof

/-! ### The engine (10_state.md R31 to R33) -/

/-- The ten registers `ENGINE.status` returns (10_state.md R31: pc, sp 16 bits, the others 8). -/
structure Regs where
  pc : Addr
  sp : Addr
  a : Byte
  b : Byte
  c : Byte
  d : Byte
  e : Byte
  f : Byte
  h : Byte
  l : Byte
  deriving DecidableEq, Repr, Inhabited

/-- `ES`, the engine's own state (10_state.md R26): engine-defined and opaque to the controller.
DESIGN CHOICE (log 4): any finite state is coded by a natural number. Safe. -/
structure EngineState where
  code : Nat
  deriving DecidableEq, Repr, Inhabited

/-- `Run` of 10_state.md R33: what one `ENGINE.step` call asks of the bus, in order, until it is done.
Every value of this type issues finitely many transactions (decision D19). -/
inductive Run where
  /-- the slice is over -/
  | done (es : EngineState)
  /-- the engine asks readMemory(addr) and continues with the answer -/
  | memr (addr : Addr) (k : Byte → Run)
  /-- the engine asks writeMemory(addr, val) -/
  | memw (addr : Addr) (val : Byte) (k : Run)
  /-- the engine asks readPort(port) and continues with the answer -/
  | ior (port : Byte) (k : Byte → Run)
  /-- the engine asks writePort(port, val) -/
  | iow (port : Byte) (val : Byte) (k : Run)
  deriving Inhabited

/-- The engine interface (10_state.md R33): "Any engine honoring this shape is interchangeable." -/
structure Engine where
  init : EngineState
  reset : EngineState → EngineState
  status : EngineState → Regs
  step : Nat → EngineState → Run
  deriving Inhabited

/-! ### The plain-data parameters (00_scope.md R5) -/

/-- `FILL_MODE` (00_scope.md R5, decision D5). -/
inductive FillMode where
  | zero
  | random
  deriving DecidableEq, Repr, Inhabited

/-- The five bits of the engine's `f` that have a name (10_state.md R32). -/
inductive EngineFlag where
  | sign
  | zero
  | ac
  | parity
  | carry
  deriving DecidableEq, Repr, Inhabited

/-- One text for each of the engine's ten registers, in the order the CPU dump prints them. -/
structure RegTexts where
  pc : Text
  sp : Text
  a : Text
  b : Text
  c : Text
  d : Text
  e : Text
  f : Text
  h : Text
  l : Text
  deriving DecidableEq, Repr, Inhabited

/-- Everything 40_common_procedures.md R107 leaves open in one text of `FMT_CPU`. DESIGN CHOICE (log 12): a
label, lead or tail may be any text. Safe. -/
structure CpuStyle where
  /-- the case of the k-th hex digit of the text, k = 0 .. 23 over the ten numerals in order -/
  upper : Nat → Bool
  /-- what stands before each register's digits: labels and separators -/
  labels : RegTexts
  /-- the flag names are printed in this order, those it does not list after it -/
  flagOrder : List EngineFlag
  /-- what stands before a flag's name -/
  flagLead : EngineFlag → Text
  /-- what ends the text, a line end among it -/
  tail : Text
  deriving Inhabited

/-- `FMT_CPU` (00_scope.md R5; 40_common_procedures.md R107): a function of the ten registers alone. The open points
may be settled differently for each register value, so every total function R107 admits is one. -/
abbrev CpuFormat := Regs → CpuStyle

/-- Everything 40_common_procedures.md R108 leaves open in one text of `FMT_MEM`. DESIGN CHOICE (log 12): a gap, an
after-text or the tail may be any text. Safe. -/
structure MemStyle where
  /-- the case of the k-th hex digit of the full row r, k = 0 .. 3 in the address, then two a byte -/
  upper : Nat → Nat → Bool
  /-- what stands between the address of the full row r and its first byte -/
  gap : Nat → Text
  /-- what follows the 16th byte of the full row r: the extra space, the row separator -/
  after : Nat → Text
  /-- what ends the text after the full rows: a last row shorter than 16 bytes, in whatever shape, and a line end or
  anything else after the last row (91_not_in_source.md N9) -/
  tail : Text
  deriving Inhabited

/-- `FMT_MEM` (00_scope.md R5; 40_common_procedures.md R108): a function of the N bytes of `MEM` alone, so every
total function R108 admits is one. -/
abbrev MemFormat := List Byte → MemStyle

/-- The plain-data part of the configuration, constant after construction (00_scope.md R5). -/
structure Cfg where
  /-- `N - 1`, the highest index of `MEM`, so that `1 <= N <= 65536` (decision D3) -/
  memTop : Fin 65536
  fillMode : FillMode
  /-- `SW_PRESENT`: a switch source is registered (decision D18) -/
  swPresent : Bool
  deriving DecidableEq, Repr, Inhabited

namespace Config

/-- `ENGINE` (00_scope.md R5): the execution engine, a parameter about which nothing is known but its
shape (U9). Log 4. -/
opaque engine : Engine

/-- The parameters `N`, `FILL_MODE`, `SW_PRESENT` given to the construction (70_reset_and_hazards.md R190). Log 5. -/
opaque cfg : Cfg

/-- The parameter `FMT_CPU` (00_scope.md R5): any format of 40_common_procedures.md R107. Log 12. -/
opaque cpuFormat : CpuFormat

/-- The parameter `FMT_MEM` (00_scope.md R5): any format of 40_common_procedures.md R108. Log 12. -/
opaque memFormat : MemFormat

/-- The parameter `CLOCK_RATE_HZ` (00_scope.md R5, decision D6), a natural number. Log 5. -/
opaque clockRateHz : Nat

/-- `draw(byte)` (00_scope.md R7): the i-th free byte the RANDOM fills take (20_memory.md R54, U8). Log 9. -/
opaque draw : Nat → Byte

end Config

end Sys2Proof
end

