-- ==== Sys2Proof/Machine/State.lean ====
section
/-! DEFINITION. The state of the controller (spec/10_state.md R20), as plain data, the reasons a step can
stop, and the state right after construction (spec/70_reset_and_hazards.md R190). -/

namespace Sys2Proof.Machine

/-- `MEM`, the Memory Store (10_state.md R21), in a canonical form: the cells with a nonzero byte, addresses
strictly rising; an address that is not listed reads 0x00 (assumption log 8). -/
abbrev Memory := List Host.Cell

/-- One entry `(SINK, v)` of `TRACE` (40_common_procedures.md R100; 10_state.md R28, R29). -/
inductive Emission where
  | aind (v : Addr)
  | dind (v : Byte)
  | wait (v : Bool)
  | stat (v : Bool)
  | out (v : Byte)
  | dbgCpu (v : Text)
  | dbgMem (v : Text)
  deriving DecidableEq, Repr

/-- The state. The fields from `mem` to `sw` are 10_state.md R20's, under its names; `cfg` is the
configuration (00_scope.md R5); the last three are the model's own (assumption log 1, 6, 9). -/
structure State where
  /-- N, FILL_MODE, SW_PRESENT: constant (00_scope.md R5; log 5) -/
  cfg : Cfg
  /-- `CLOCK_RATE_HZ`, constant (10_state.md R24) -/
  clockRateHz : Nat
  /-- `MEM` (10_state.md R21) -/
  mem : Memory
  /-- `PWR`, poweredOn (10_state.md R22) -/
  pwr : Bool
  /-- `RUN`, running (10_state.md R22) -/
  run : Bool
  /-- `TP`, tick pending (10_state.md R25) -/
  tp : Bool
  /-- `LA`, lastAddress, the cursor (10_state.md R23) -/
  la : Addr
  /-- `ES`, the engine's state (10_state.md R26) -/
  es : EngineState
  /-- `AIND`, the address indicators (10_state.md R28) -/
  aind : Addr
  /-- `DIND`, the data indicators -/
  dind : Byte
  /-- `WAIT`, the wait indicator -/
  wait : Bool
  /-- `STAT`, the status indicator -/
  stat : Bool
  /-- `OUT`, the output indicator of port 0xFF -/
  out : Byte
  /-- `DBGCPU`, the CPU status text -/
  dbgCpu : Text
  /-- `DBGMEM`, the memory dump text -/
  dbgMem : Text
  /-- `TRACE`, every emission, oldest first (10_state.md R29) -/
  trace : List Emission
  /-- `SW`, the switch word, the environment's (10_state.md R30) -/
  sw : Addr
  /-- MODEL'S OWN: the events still to come, in order (log 1) -/
  inputs : List Input
  /-- MODEL'S OWN: the byte the last MEMR or IOR answered (log 6) -/
  reply : Option Byte
  /-- MODEL'S OWN: how many free bytes the RANDOM fills have taken (log 9) -/
  drawn : Nat
  deriving DecidableEq, Repr

/-- Reasons a step stops with a fault: none. "The controller raises no exception, fault or error"
(60_exceptions.md R170), so the type has no constructor and nothing can raise one. -/
inductive Fault where
  deriving DecidableEq, Repr

/-- Reasons the model gives no next state. -/
inductive Refusal where
  /-- Raised by an arm of `exec` whose operation has no meaning yet; no arm does. Safe: the run stops. -/
  | notModelled (mnemonic : String)
  /-- Raised by `step` for a queued request that is none of 30_encoding.md R80 to R84's (log 13). Safe: the
  run stops, where the hardware has no such request. -/
  | malformedRequest (why : DecodeError)
  deriving DecidableEq, Repr

/-- `Construct(N, FILL_MODE, CLOCK_RATE_HZ, ENGINE, SW_PRESENT, FMT_CPU, FMT_MEM)`
(70_reset_and_hazards.md R190), with the engine's `init()` as its state. DESIGN CHOICE (log 8, 10): `MEM`
lists nothing and `SW` is 0x0000, for which the spec gives no value. Unsafe. -/
def State.construct (cfg : Cfg) (clockRateHz : Nat) (es : EngineState) : State where
  cfg := cfg
  clockRateHz := clockRateHz
  mem := []
  pwr := false
  run := false
  tp := false
  la := 0x0000#16
  es := es
  aind := 0x0000#16
  dind := 0x00#8
  wait := false
  stat := false
  out := 0x00#8
  dbgCpu := []
  dbgMem := []
  trace := []
  sw := 0x0000#16
  inputs := []
  reply := none
  drawn := 0

/-- The state right after construction, with the open parameters (70_reset_and_hazards.md R190; the column
"after construction" of 10_state.md R41). -/
def State.reset : State :=
  State.construct Config.cfg Config.clockRateHz Config.engine.init

end Sys2Proof.Machine
end

