-- ==== Sys2Proof/Machine/Flags.lean ====
section
/-! DEFINITION. The controller's flags PWR, RUN, TP: the protocol states (spec/10_state.md R22), the power gate
(spec/43_front_panel.md R151), Scheduler.start and Scheduler.stop (spec/42_scheduler.md R130, R131); and the
names of the engine's flag bits (spec/10_state.md R32). No operation of the controller computes a carry, zero
or overflow flag (spec/40_common_procedures.md R111). -/

namespace Sys2Proof

/-- The bit of `f` a named flag stands at (10_state.md R32). -/
def EngineFlag.bit : EngineFlag → Nat
  | .sign => 7
  | .zero => 6
  | .ac => 4
  | .parity => 2
  | .carry => 0

/-- The name the CPU dump prints (40_common_procedures.md R107). -/
def EngineFlag.label : EngineFlag → Text
  | .sign => "SIGN".toList
  | .zero => "ZERO".toList
  | .ac => "AC".toList
  | .parity => "PARITY".toList
  | .carry => "CARRY".toList

namespace Machine

/-- The states of the Front-Panel Protocol Controller (10_state.md R22). -/
inductive Protocol where
  | off
  | onIdle
  | onRunning
  deriving DecidableEq, Repr

/-- The protocol state the pair (PWR, RUN) stands for; the pair (0, 1) stands for none (10_state.md R22). -/
def protocol (s : State) : Option Protocol :=
  match s.pwr, s.run with
  | false, false => some .off
  | true, false => some .onIdle
  | true, true => some .onRunning
  | false, true => none

/-- The power gate, `if PWR = 0 then return` (43_front_panel.md R151). -/
def whenPowered (f : State → State) (s : State) : State := if s.pwr then f s else s

/-- `Scheduler.start()` (42_scheduler.md R130). -/
def schedulerStart (s : State) : State := { s with run := true, tp := true }

/-- `Scheduler.stop()` (42_scheduler.md R131). -/
def schedulerStop (s : State) : State := { s with run := false }

end Machine

end Sys2Proof
end

