-- ==== Sys2Proof/Machine/Operands.lean ====
section
/-! DEFINITION. Operand assembly (spec/30_encoding.md R85, R86), address reduction (spec/20_memory.md R50) and
the token grammar of the hex loader (spec/44_bulk_load.md R163). -/

namespace Sys2Proof

/-- `N` (00_scope.md R5). -/
def Cfg.size (c : Cfg) : Nat := c.memTop.val + 1

namespace Machine

/-- The byte touched by address `a` is `MEM[a mod N]`: "every address is taken modulo N before use"
(20_memory.md R50). Stated for every natural `a` (decision D4). -/
def memIndex (s : State) (a : Nat) : Nat := a % s.cfg.size

/-- The switch word as the controller reads it: 0x0000 with no switch source (10_state.md R30, decision D18). -/
def switchWord (s : State) : Addr := if s.cfg.swPresent then s.sw else 0x0000#16

/-- `SW[7:0]`, the deposit byte (30_encoding.md R86). -/
def switchLow (s : State) : Byte := (switchWord s).extractLsb' 0 8

/-- `SW[15:8]`, what port 0xFF reads (30_encoding.md R86). -/
def switchHigh (s : State) : Byte := (switchWord s).extractLsb' 8 8

/-- The one wired port (20_memory.md R57). -/
def wiredPort : Byte := 0xFF#8

/-- `(LA + 1) mod 65536` (43_front_panel.md R147; 40_common_procedures.md R111). -/
def nextCursor (la : Addr) : Addr := la + 1#16

/-- `cycles = CLOCK_RATE_HZ div 1000`, the slice of one tick (42_scheduler.md R133; floor, decision D7). -/
def sliceCycles (s : State) : Nat := s.clockRateHz / 1000

/-- The elements of an indicator array: element i is bit i (10_state.md R28, decision D21; for port 0xFF
"least-significant bit first", 41_bus_adapter.md R123). -/
def indicatorBits {n : Nat} (v : BitVec n) : List Bool := (List.range n).map v.getLsbD

/-! ### Hex-loader tokens (44_bulk_load.md R163) -/

/-- `Whitespace`: space, tab, line feed, carriage return. -/
def isWhitespace (c : Char) : Bool :=
  c.toNat == 0x20 || c.toNat == 0x09 || c.toNat == 0x0A || c.toNat == 0x0D

/-- The tokens of `text` when the characters `cur` of a token have been read already. -/
def tokensFrom (cur : Text) : Text → List Text
  | [] => if cur = [] then [] else [cur]
  | c :: cs =>
    if isWhitespace c then
      (if cur = [] then tokensFrom [] cs else cur :: tokensFrom [] cs)
    else tokensFrom (cur ++ [c]) cs

/-- `Tokens(text)`: the maximal runs of non-whitespace characters, in order. -/
def tokens (text : Text) : List Text := tokensFrom [] text

/-- The value of a hex digit 0-9, a-f, A-F. -/
def hexDigitValue (c : Char) : Option Nat :=
  if 0x30 ≤ c.toNat ∧ c.toNat ≤ 0x39 then some (c.toNat - 0x30)
  else if 0x61 ≤ c.toNat ∧ c.toNat ≤ 0x66 then some (c.toNat - 0x61 + 10)
  else if 0x41 ≤ c.toNat ∧ c.toNat ≤ 0x46 then some (c.toNat - 0x41 + 10)
  else none

/-- `Valid(t)` and `Value(t)` in one: the byte a token of one or two hex digits denotes, most significant
digit first; no value for an invalid token. -/
def tokenByte (t : Text) : Option Byte :=
  match t with
  | [c] => (hexDigitValue c).map (BitVec.ofNat 8)
  | [c, d] =>
    match hexDigitValue c, hexDigitValue d with
    | some x, some y => some (BitVec.ofNat 8 (16 * x + y))
    | _, _ => none
  | _ => none

end Machine

end Sys2Proof
end

