-- ==== Sys2Proof/Machine/Text.lean ====
section
/-! DEFINITION. The text formats of the debug sinks (spec/40_common_procedures.md R107 to R109): what R107 and
R108 fix is written here once, what they leave open comes from the format, a parameter (00_scope.md R5), and the
spec's conforming instance (decision D22) is one format of each. -/

namespace Sys2Proof.Machine

/-- One hexadecimal digit. -/
def hexDigit (upper : Bool) (d : BitVec 4) : Char :=
  if d.toNat < 10 then Char.ofNat (0x30 + d.toNat)
  else if upper then Char.ofNat (0x41 + (d.toNat - 10))
  else Char.ofNat (0x61 + (d.toNat - 10))

/-- The two digits of a byte, most significant first; `upper k` is the case of the k-th digit of the text. -/
def hex2At (upper : Nat → Bool) (k : Nat) (v : Byte) : Text :=
  [hexDigit (upper k) (v.extractLsb' 4 4), hexDigit (upper (k + 1)) (v.extractLsb' 0 4)]

/-- The four digits of a 16-bit value, most significant first. -/
def hex4At (upper : Nat → Bool) (k : Nat) (v : Addr) : Text :=
  hex2At upper k (v.extractLsb' 8 8) ++ hex2At upper (k + 2) (v.extractLsb' 0 8)

/-- `hex2(v)`: two digits in one case (40_common_procedures.md R109). -/
def hex2 (upper : Bool) (v : Byte) : Text := hex2At (fun _ => upper) 0 v

/-- `hex4(v)`: four digits in one case (40_common_procedures.md R109). -/
def hex4 (upper : Bool) (v : Addr) : Text := hex4At (fun _ => upper) 0 v

/-- The five named flags in bit order 7, 6, 4, 2, 0 (40_common_procedures.md R107, decision D22). -/
def namedFlags : List EngineFlag := [.sign, .zero, .ac, .parity, .carry]

/-- The five named flags, once each: those the style lists, in its order, then the others. -/
def flagSequence (order : List EngineFlag) : List EngineFlag :=
  order.dedup ++ namedFlags.filter fun x => decide (x ∉ order)

/-- "followed by the names of any set flag bits" (40_common_procedures.md R107). -/
def flagNames (st : CpuStyle) (f : Byte) : Text :=
  ((flagSequence st.flagOrder).map
    fun x => if f.getLsbD x.bit then st.flagLead x ++ x.label else []).flatten

/-- The numerals of the registers: PC and SP as 4 hex digits, A B C D E F H L as 2 each
(40_common_procedures.md R107). -/
def regNumerals (upper : Nat → Bool) (r : Regs) : RegTexts where
  pc := hex4At upper 0 r.pc
  sp := hex4At upper 4 r.sp
  a := hex2At upper 8 r.a
  b := hex2At upper 10 r.b
  c := hex2At upper 12 r.c
  d := hex2At upper 14 r.d
  e := hex2At upper 16 r.e
  f := hex2At upper 18 r.f
  h := hex2At upper 20 r.h
  l := hex2At upper 22 r.l

/-- Each register's label followed by its numeral, in the order of 40_common_procedures.md R107. -/
def regLine (labels numerals : RegTexts) : Text :=
  labels.pc ++ numerals.pc ++ labels.sp ++ numerals.sp ++ labels.a ++ numerals.a ++ labels.b ++ numerals.b
    ++ labels.c ++ numerals.c ++ labels.d ++ numerals.d ++ labels.e ++ numerals.e ++ labels.f ++ numerals.f
    ++ labels.h ++ numerals.h ++ labels.l ++ numerals.l

/-- The text of the registers `r` in the style `st`: the register line, then the names of the set flag bits
(40_common_procedures.md R107). -/
def cpuTextIn (st : CpuStyle) (r : Regs) : Text :=
  regLine st.labels (regNumerals st.upper r) ++ flagNames st r.f ++ st.tail

/-- `FMT_CPU(s)` (40_common_procedures.md R107). -/
def fmtCpu (F : CpuFormat) (r : Regs) : Text := cpuTextIn (F r) r

/-- `Sep(j)`: nothing before the first byte of a row, two spaces before the 9th, one before the others
(40_common_procedures.md R108). -/
def byteSep (j : Nat) : Text :=
  if j = 0 then [] else if j = 8 then [' ', ' '] else [' ']

/-- `Row(r)` (40_common_procedures.md R108) of a memory of `n` bytes read by `byteAt`, to its last byte: the start
address as 4 hex digits, then its 16 bytes as 2 hex digits each, separated as `Sep` says. Of fewer than 16 bytes it is
the short last row of the conforming instance alone (decision D22). -/
def memRow (st : MemStyle) (n : Nat) (byteAt : Nat → Byte) (r : Nat) : Text :=
  hex4At (st.upper r) 0 (BitVec.ofNat 16 (16 * r)) ++ st.gap r
    ++ ((List.range (min 16 (n - 16 * r))).map
        fun j => byteSep j ++ hex2At (st.upper r) (4 + 2 * j) (byteAt (16 * r + j))).flatten

/-- The rows of 16 bytes in the style `st`, each followed by what the style puts after it, then the style's tail. -/
def memTextIn (st : MemStyle) (n : Nat) (byteAt : Nat → Byte) : Text :=
  ((List.range (n / 16)).map fun r => memRow st n byteAt r ++ st.after r).flatten ++ st.tail

/-- `FMT_MEM(MEM)` (40_common_procedures.md R108): rows of 16 bytes, each prefixed by its start address as 4
hex digits, "with an extra space inserted after every 8th byte". The shape of a last row shorter than 16 bytes and
what follows the last row, a line end among it, are the format's (91_not_in_source.md N9; log 12). -/
def fmtMem (F : MemFormat) (n : Nat) (byteAt : Nat → Byte) : Text :=
  memTextIn (F ((List.range n).map byteAt)) n byteAt

/-- The labels of R107's conforming instance. -/
def conformingLabels : RegTexts where
  pc := "PC:".toList
  sp := " SP:".toList
  a := " A:".toList
  b := " B:".toList
  c := " C:".toList
  d := " D:".toList
  e := " E:".toList
  f := " F:".toList
  h := " H:".toList
  l := " L:".toList

/-- The style of R107's conforming instance. -/
def conformingCpuStyle : CpuStyle where
  upper _ := false
  labels := conformingLabels
  flagOrder := namedFlags
  flagLead _ := [' ']
  tail := []

/-- The conforming instance of `FMT_CPU` (40_common_procedures.md R107, decision D22). -/
def conformingCpuFormat : CpuFormat := fun _ => conformingCpuStyle

/-- The style of R108's conforming instance for the full rows of a memory of `n` bytes: rows joined by a line feed,
none after the last. -/
def conformingMemStyle (n : Nat) : MemStyle where
  upper _ _ := false
  gap _ := [' ']
  after r := if 16 * (r + 1) < n then ['\n'] else []
  tail := []

/-- The conforming instance of `FMT_MEM` (40_common_procedures.md R108, decision D22): a short last row is written as
a full one, to its last byte. -/
def conformingMemFormat : MemFormat := fun bytes =>
  { conformingMemStyle bytes.length with
    tail := if bytes.length % 16 = 0 then [] else
      memRow (conformingMemStyle bytes.length) bytes.length (bytes.getD · 0x00#8) (bytes.length / 16) }

end Sys2Proof.Machine
end

