-- ==== Sys2Proof/Machine/Ops.lean ====
section
/-! DEFINITION. The named operations over memory, ports, latches and the engine: the primitives of
spec/00_scope.md R7, spec/20_memory.md R50 to R55, and the common procedures of spec/40_common_procedures.md and
spec/41_bus_adapter.md. There is no operation that takes an exception or returns from one: the controller has
no trap entry, no trap return and nothing that traps (spec/60_exceptions.md R170, R177, R178). -/

namespace Sys2Proof.Machine

/-! ### The Memory Store -/

/-- What an address the list does not hold reads as: 0x00, the byte of the ZERO fill (20_memory.md R54).
DESIGN CHOICE for the content at construction, which the spec leaves unspecified (log 8). Unsafe. -/
def unlistedByte : Byte := 0x00#8

/-- The byte at index `i`. -/
def Memory.read : Memory → Nat → Byte
  | [], _ => unlistedByte
  | (b, w) :: rest, i => if i = b then w else Memory.read rest i

/-- Cons a cell, unless its byte is what an unlisted address reads as. -/
def Memory.consCell (i : Nat) (v : Byte) (m : Memory) : Memory :=
  if v = unlistedByte then m else (i, v) :: m

/-- Set the byte at index `i`, keeping the canonical form. -/
def Memory.write : Memory → Nat → Byte → Memory
  | [], i, v => Memory.consCell i v []
  | (b, w) :: rest, i, v =>
    if i < b then Memory.consCell i v ((b, w) :: rest)
    else if i = b then Memory.consCell i v rest
    else (b, w) :: Memory.write rest i v

/-- The canonical form from address `lo` on: addresses rising strictly, no byte an unlisted address reads as. -/
def Memory.wfFrom (lo : Nat) : Memory → Bool
  | [] => true
  | (b, w) :: rest => decide (lo ≤ b) && decide (w ≠ unlistedByte) && Memory.wfFrom (b + 1) rest

/-- The canonical form of a memory. -/
def Memory.wf (m : Memory) : Bool := Memory.wfFrom 0 m

/-- Every listed index is below `n`: `MEM` has the elements `0 .. N-1` (10_state.md R40 INV7). -/
def Memory.below (n : Nat) (m : Memory) : Bool := m.all fun c => decide (c.1 < n)

/-- The memory whose `count` bytes from `i` on are those of `f`. -/
def Memory.tabulate (f : Nat → Byte) (i : Nat) : Nat → Memory
  | 0 => []
  | count + 1 => Memory.consCell i (f i) (Memory.tabulate f (i + 1) count)

/-- Direct storage of a sequence of slots from index `i` on, without reduction and only below `n`; a slot
without a byte is left alone (20_memory.md R55; 44_bulk_load.md R160, R162). -/
def Memory.storeSlots (n : Nat) (i : Nat) : List (Option Byte) → Memory → Memory
  | [], m => m
  | none :: rest, m => Memory.storeSlots n (i + 1) rest m
  | some v :: rest, m => Memory.storeSlots n (i + 1) rest (if i < n then Memory.write m i v else m)

/-- `MemRead(addr, 1)` (20_memory.md R51): `MEM[addr mod N]`, for every natural address. -/
def memRead (s : State) (a : Nat) : Byte := Memory.read s.mem (memIndex s a)

/-- `MemWrite(addr, 1, v)` (20_memory.md R52): `MEM[addr mod N] <- v`. -/
def memWrite (a : Nat) (v : Byte) (s : State) : State :=
  { s with mem := Memory.write s.mem (memIndex s a) v }

/-- `Fill()` (20_memory.md R54): every byte 0x00, or every byte a fresh free value (U8, log 9). -/
def fill (s : State) : State :=
  match s.cfg.fillMode with
  | .zero => { s with mem := [] }
  | .random =>
    { s with
      mem := Memory.tabulate (fun i => Config.draw (s.drawn + i)) 0 s.cfg.size
      drawn := s.drawn + s.cfg.size }

/-- The bulk loader's writes (44_bulk_load.md R160, R162): slot i goes to `MEM[address + i]` while
`address + i < N`. -/
def loadSlots (address : Addr) (slots : List (Option Byte)) (s : State) : State :=
  { s with mem := Memory.storeSlots s.cfg.size address.toNat slots s.mem }

/-! ### Emitting -/

/-- `Emit(SINK, v)` (40_common_procedures.md R100): write the latch and append to `TRACE`. -/
def emit (e : Emission) (s : State) : State :=
  match e with
  | .aind v => { s with aind := v, trace := s.trace ++ [e] }
  | .dind v => { s with dind := v, trace := s.trace ++ [e] }
  | .wait v => { s with wait := v, trace := s.trace ++ [e] }
  | .stat v => { s with stat := v, trace := s.trace ++ [e] }
  | .out v => { s with out := v, trace := s.trace ++ [e] }
  | .dbgCpu v => { s with dbgCpu := v, trace := s.trace ++ [e] }
  | .dbgMem v => { s with dbgMem := v, trace := s.trace ++ [e] }

/-! ### The Bus Adapter's procedures (41_bus_adapter.md) -/

/-- `BusMEMR(addr)` (R120): answer `MEM[addr mod N]`. -/
def busMemr (addr : Addr) (s : State) : State :=
  { s with reply := some (memRead s addr.toNat) }

/-- `BusMEMW(addr, val)` (R121). -/
def busMemw (addr : Addr) (val : Byte) (s : State) : State := memWrite addr.toNat val s

/-- What reading a port gives (R122): the upper byte of the switch word at port 0xFF, 0x00 elsewhere. -/
def portRead (s : State) (port : Byte) : Byte :=
  if port = wiredPort then switchHigh s else 0x00#8

/-- `BusIOR(port)` (R122): answer the port's byte. -/
def busIor (port : Byte) (s : State) : State :=
  { s with reply := some (portRead s port) }

/-- `BusIOW(port, val)` (R123): drive the output indicator at port 0xFF, nothing elsewhere. -/
def busIow (port : Byte) (val : Byte) (s : State) : State :=
  if port = wiredPort then emit (.out val) s else s

/-! ### The engine step (40_common_procedures.md R104) -/

/-- The loop of `EngineStep`: each transaction takes effect before the next is asked for. -/
def runEngine : Run → State → State
  | .done es, s => { s with es := es }
  | .memr addr k, s => runEngine (k (memRead s addr.toNat)) (busMemr addr s)
  | .memw addr val k, s => runEngine k (busMemw addr val s)
  | .ior port k, s => runEngine (k (portRead s port)) (busIor port s)
  | .iow port val k, s => runEngine k (busIow port val s)

/-- `EngineStep(n)` (40_common_procedures.md R104). -/
def engineStep (E : Engine) (n : Nat) (s : State) : State := runEngine (E.step n s.es) s

/-- `ES <- ENGINE.reset(ES)` (43_front_panel.md R140, R142). -/
def engineReset (E : Engine) (s : State) : State := { s with es := E.reset s.es }

/-! ### Panel and debug refreshes (40_common_procedures.md R101 to R106) -/

/-- `RefreshPanel(a)` (R101): the unreduced address, then the byte at `a mod N`. -/
def refreshPanel (a : Addr) (s : State) : State :=
  emit (.dind (memRead s a.toNat)) (emit (.aind a) s)

/-- `RefreshAfterStep()` (R102): the engine's pc and the byte it addresses (decision D12). -/
def refreshAfterStep (E : Engine) (s : State) : State := refreshPanel (E.status s.es).pc s

/-- `FMT_CPU(ENGINE.status(ES))`. -/
def cpuText (E : Engine) (s : State) : Text := fmtCpu Config.cpuFormat (E.status s.es)

/-- `FMT_MEM(MEM)`. -/
def memText (s : State) : Text := fmtMem Config.memFormat s.cfg.size (Memory.read s.mem)

/-- `RefreshDebug()` (R103): CPU text first, memory text second. -/
def refreshDebug (E : Engine) (s : State) : State :=
  emit (.dbgMem (memText s)) (emit (.dbgCpu (cpuText E s)) s)

/-- `ClearPanel()` (R105). -/
def clearPanel (s : State) : State :=
  emit (.dbgMem []) (emit (.dbgCpu []) (emit (.wait false) (emit (.stat false)
    (emit (.dind 0x00#8) (emit (.aind 0x0000#16) s)))))

/-- `Flash()` (R106): all-on, then all-off. -/
def flash (s : State) : State :=
  emit (.dind 0x00#8) (emit (.aind 0x0000#16) (emit (.dind 0xFF#8) (emit (.aind 0xFFFF#16) s)))

end Sys2Proof.Machine
end

