-- ==== Sys2Proof/Machine/BulkLoad.lean ====
section
/-! DEFINITION. The meanings of LOAD and LOADHEX (spec/44_bulk_load.md R160, R162). -/

namespace Sys2Proof.Machine

/-- LOAD (44_bulk_load.md R160): every byte has its slot. -/
def bulkLoad (address : Addr) (bytes : List Byte) : State → State :=
  whenPowered (loadSlots address (bytes.map some))

/-- LOADHEX (44_bulk_load.md R162): an invalid token leaves its slot alone and the slot index advances
(decision D14). -/
def bulkLoadHex (address : Addr) (text : Text) : State → State :=
  whenPowered (loadSlots address ((tokens text).map tokenByte))

/-- LOAD. -/
def execLoad (laddr : Addr) (bytes : List Byte) (s : State) : Host.Outcome State Fault Refusal :=
  .next (bulkLoad laddr bytes s)

/-- LOADHEX. -/
def execLoadhex (laddr : Addr) (text : Text) (s : State) : Host.Outcome State Fault Refusal :=
  .next (bulkLoadHex laddr text s)

end Sys2Proof.Machine
end

