-- ==== Sys2Proof/Machine/BusAdapter.lean ====
section
/-! DEFINITION. The meanings of MEMR, MEMW, IOR, IOW (spec/41_bus_adapter.md R120 to R123). None tests PWR or RUN
(R124). -/

namespace Sys2Proof.Machine

/-- MEMR (41_bus_adapter.md R120). -/
def execMemr (addr : Addr) (s : State) : Host.Outcome State Fault Refusal := .next (busMemr addr s)

/-- MEMW (41_bus_adapter.md R121). -/
def execMemw (addr : Addr) (val : Byte) (s : State) : Host.Outcome State Fault Refusal :=
  .next (busMemw addr val s)

/-- IOR (41_bus_adapter.md R122). -/
def execIor (port : Byte) (s : State) : Host.Outcome State Fault Refusal := .next (busIor port s)

/-- IOW (41_bus_adapter.md R123). -/
def execIow (port : Byte) (val : Byte) (s : State) : Host.Outcome State Fault Refusal :=
  .next (busIow port val s)

end Sys2Proof.Machine
end

