-- ==== Sys2Proof/Machine/FrontPanel.lean ====
section
/-! DEFINITION. The meanings of the ten panel commands (spec/43_front_panel.md R140 to R149). Each `panel…`
definition is the rule's pseudocode line by line, for any engine; each `exec…` takes the machine's engine. -/

namespace Sys2Proof.Machine

/-- PWRON (43_front_panel.md R140): ignored when already on (decision D9). -/
def panelPwron (E : Engine) (s : State) : State :=
  if s.pwr then s
  else emit (.wait true) (emit (.stat true)
    { engineReset E (fill s) with la := 0x0000#16, pwr := true })

/-- PWROFF (43_front_panel.md R141): unconditional (conflict C4). -/
def panelPwroff (s : State) : State := { clearPanel s with run := false, pwr := false }

/-- RESET (43_front_panel.md R142). It does not touch MEM (decision D13) or WAIT (decision D8). -/
def panelReset (E : Engine) : State → State :=
  whenPowered fun s =>
    refreshDebug E (flash { engineReset E s with run := false, la := 0x0000#16 })

/-- The RUN command (43_front_panel.md R143). -/
def panelRun : State → State :=
  whenPowered fun s => schedulerStart (emit (.wait false) { s with run := true })

/-- STOP (43_front_panel.md R144): in ON_IDLE the same lines run (conflict C5). -/
def panelStop : State → State :=
  whenPowered fun s => emit (.wait true) (schedulerStop s)

/-- STEP (43_front_panel.md R145): ignored in ON_RUNNING (decision D9). -/
def panelStep (E : Engine) : State → State :=
  whenPowered fun s =>
    if s.run then s else refreshDebug E (refreshAfterStep E (engineStep E 1 s))

/-- `LA <- a`, then show the cursor: the common tail of EXAM and EXAMNXT (43_front_panel.md R146, R147). -/
def examineAt (E : Engine) (a : Addr) (s : State) : State :=
  refreshDebug E (refreshPanel a { s with la := a })

/-- `LA <- a`, store the low switch byte there and show it: the common tail of DEP and DEPNXT
(43_front_panel.md R148, R149). -/
def depositAt (E : Engine) (a : Addr) (s : State) : State :=
  refreshDebug E (refreshPanel a (memWrite a.toNat (switchLow s) { s with la := a }))

/-- EXAM (43_front_panel.md R146). -/
def panelExam (E : Engine) : State → State :=
  whenPowered fun s => examineAt E (switchWord s) s

/-- EXAMNXT (43_front_panel.md R147). -/
def panelExamnxt (E : Engine) : State → State :=
  whenPowered fun s => examineAt E (nextCursor s.la) s

/-- DEP (43_front_panel.md R148): the cursor stays. -/
def panelDep (E : Engine) : State → State :=
  whenPowered fun s => depositAt E s.la s

/-- DEPNXT (43_front_panel.md R149): the increment comes before the write. -/
def panelDepnxt (E : Engine) : State → State :=
  whenPowered fun s => depositAt E (nextCursor s.la) s

/-- PWRON with the machine's engine. -/
def execPwron (s : State) : Host.Outcome State Fault Refusal := .next (panelPwron Config.engine s)

/-- PWROFF. -/
def execPwroff (s : State) : Host.Outcome State Fault Refusal := .next (panelPwroff s)

/-- RESET with the machine's engine. -/
def execReset (s : State) : Host.Outcome State Fault Refusal := .next (panelReset Config.engine s)

/-- The RUN command. -/
def execRun (s : State) : Host.Outcome State Fault Refusal := .next (panelRun s)

/-- STOP. -/
def execStop (s : State) : Host.Outcome State Fault Refusal := .next (panelStop s)

/-- STEP with the machine's engine. -/
def execStep (s : State) : Host.Outcome State Fault Refusal := .next (panelStep Config.engine s)

/-- EXAM with the machine's engine. -/
def execExam (s : State) : Host.Outcome State Fault Refusal := .next (panelExam Config.engine s)

/-- EXAMNXT with the machine's engine. -/
def execExamnxt (s : State) : Host.Outcome State Fault Refusal := .next (panelExamnxt Config.engine s)

/-- DEP with the machine's engine. -/
def execDep (s : State) : Host.Outcome State Fault Refusal := .next (panelDep Config.engine s)

/-- DEPNXT with the machine's engine. -/
def execDepnxt (s : State) : Host.Outcome State Fault Refusal := .next (panelDepnxt Config.engine s)

end Sys2Proof.Machine
end

