-- ==== Sys2Proof/Machine/Reserved.lean ====
section
/-! DEFINITION. The meanings of the reserved command codes (spec/30_encoding.md R87): "ignored: no state changes,
nothing is emitted, no error is raised, in every protocol state". -/

namespace Sys2Proof.Machine

/-- A command that is ignored. -/
def ignoreCommand (s : State) : State := s

/-- Code 0x0. -/
def execReserved0 (s : State) : Host.Outcome State Fault Refusal := .next (ignoreCommand s)

/-- Code 0xD. -/
def execReservedD (s : State) : Host.Outcome State Fault Refusal := .next (ignoreCommand s)

/-- Code 0xE. -/
def execReservedE (s : State) : Host.Outcome State Fault Refusal := .next (ignoreCommand s)

/-- Code 0xF. -/
def execReservedF (s : State) : Host.Outcome State Fault Refusal := .next (ignoreCommand s)

end Sys2Proof.Machine
end

