-- ==== Sys2Proof/Machine/Scheduler.lean ====
section
/-! DEFINITION. The meaning of TICK (spec/42_scheduler.md R132 to R134). -/

namespace Sys2Proof.Machine

/-- The working part of a tick that found RUN = 1 (42_scheduler.md R133). -/
def tickWork (E : Engine) (s : State) : State :=
  { refreshDebug E (refreshAfterStep E (engineStep E (sliceCycles s) s)) with tp := true }

/-- TICK (42_scheduler.md R133). It "may fire" exactly when TP = 1 (R132); a tick asked for when none is
outstanding does nothing: DESIGN CHOICE (log 7). Safe. -/
def schedulerTick (E : Engine) (s : State) : State :=
  if s.tp then
    if s.run then tickWork E { s with tp := false } else { s with tp := false }
  else s

/-- TICK (42_scheduler.md R133) with the machine's engine. -/
def execTick (s : State) : Host.Outcome State Fault Refusal := .next (schedulerTick Config.engine s)

end Sys2Proof.Machine
end

