-- ==== Sys2Proof/Machine/Dispatch.lean ====
section
/-! DEFINITION. One arm per operation: each calls its meaning. -/

namespace Sys2Proof.Machine

def exec (i : Instr) (s : State) : Host.Outcome State Fault Refusal :=
  match i with
  | .pwron => Sys2Proof.Machine.execPwron s
  | .pwroff => Sys2Proof.Machine.execPwroff s
  | .reset => Sys2Proof.Machine.execReset s
  | .run => Sys2Proof.Machine.execRun s
  | .stop => Sys2Proof.Machine.execStop s
  | .step => Sys2Proof.Machine.execStep s
  | .exam => Sys2Proof.Machine.execExam s
  | .examnxt => Sys2Proof.Machine.execExamnxt s
  | .dep => Sys2Proof.Machine.execDep s
  | .depnxt => Sys2Proof.Machine.execDepnxt s
  | .load laddr bytes => Sys2Proof.Machine.execLoad laddr bytes s
  | .loadhex laddr text => Sys2Proof.Machine.execLoadhex laddr text s
  | .memr addr => Sys2Proof.Machine.execMemr addr s
  | .memw addr val => Sys2Proof.Machine.execMemw addr val s
  | .ior port => Sys2Proof.Machine.execIor port s
  | .iow port val => Sys2Proof.Machine.execIow port val s
  | .tick => Sys2Proof.Machine.execTick s
  | .reserved0 => Sys2Proof.Machine.execReserved0 s
  | .reservedD => Sys2Proof.Machine.execReservedD s
  | .reservedE => Sys2Proof.Machine.execReservedE s
  | .reservedF => Sys2Proof.Machine.execReservedF s

end Sys2Proof.Machine
end

