-- ==== Sys2Proof/Machine/Step.lean ====
section
/-! DEFINITION. One step of the machine: the next event of the queue, or, when none waits, the pending tick
(assumption log 1); and how the host places one request (log 2). -/

namespace Sys2Proof.Machine

/-- One atomic operation (spec/00_scope.md R8). The order of events is data (60_exceptions.md R176): every
interleaving of ticks, commands and switch changes is a value of `inputs`. With no event waiting the host is
free and the outstanding tick fires (42_scheduler.md R130, R132); with none outstanding the machine is quiescent
(70_reset_and_hazards.md R206) and the step changes nothing. -/
def step (s : State) : Host.Outcome State Fault Refusal :=
  match s.inputs with
  | [] => if s.tp then exec .tick s else .next s
  | .switches w :: rest => .next { s with inputs := rest, sw := w }
  | .request r :: rest =>
    match decode r with
    | .ok i => exec i { s with inputs := rest }
    | .error why => .refused (.malformedRequest why)

/-- `s` with the request of a table word next in the queue. A tick needs TP = 1 to fire (42_scheduler.md R132),
so placing one sets TP. A word that is no request leaves `s` alone. -/
def State.withFetchWord (s : State) (nbits w : Nat) : State :=
  match tableRequest nbits w with
  | none => s
  | some (.t req) => { s with inputs := .request (.t req) :: s.inputs, tp := true }
  | some r => { s with inputs := .request r :: s.inputs }

end Sys2Proof.Machine
end

