-- ==== Sys2Proof/Safety.lean ====
section
/-! DEFINITION. What the claims speak of: the invariants of spec/10_state.md R40, the transition table of
spec/43_front_panel.md R150, the engine step as a sequence of bus operations (spec/40_common_procedures.md R104),
and conditions on the events still to come. -/

namespace Sys2Proof

/-! ### Conditions on events -/

/-- Every operation the event stands for meets `p` (a switch change and a malformed request stand for none). -/
def Input.onlyIf (p : Instr → Bool) : Input → Bool
  | .switches _ => true
  | .request r =>
    match decode r with
    | .ok i => p i
    | .error _ => true

/-- The operations that write the engine's state (10_state.md R26), directly or by letting ticks work. -/
def Instr.touchesEngine : Instr → Bool
  | .pwron | .reset | .run | .step => true
  | .pwroff | .stop | .exam | .examnxt | .dep | .depnxt | .load _ _ | .loadhex _ _ | .memr _ | .memw _ _
  | .ior _ | .iow _ _ | .tick | .reserved0 | .reservedD | .reservedE | .reservedF => false

/-- The bus transactions. -/
def Instr.isBus : Instr → Bool
  | .memr _ | .memw _ _ | .ior _ | .iow _ _ => true
  | .pwron | .pwroff | .reset | .run | .stop | .step | .exam | .examnxt | .dep | .depnxt | .load _ _
  | .loadhex _ _ | .tick | .reserved0 | .reservedD | .reservedE | .reservedF => false

namespace Machine

/-! ### Invariants -/

/-- INV1 to INV5 and INV7 of 10_state.md R40 (INV6 holds by the type of `tp`), and the canonical form of the
memory list. -/
structure State.Inv (s : State) : Prop where
  /-- INV1: RUN = 1 implies PWR = 1 -/
  running_powered : s.run = true → s.pwr = true
  /-- INV2: RUN = 1 implies TP = 1 -/
  running_pending : s.run = true → s.tp = true
  /-- INV3: in OFF the panel is dark and both texts are empty -/
  off_dark : s.pwr = false →
    s.aind = 0x0000#16 ∧ s.dind = 0x00#8 ∧ s.wait = false ∧ s.stat = false ∧ s.dbgCpu = [] ∧ s.dbgMem = []
  /-- INV4: STAT = PWR -/
  stat_pwr : s.stat = s.pwr
  /-- INV5: RUN = 1 implies WAIT = 0 -/
  running_wait : s.run = true → s.wait = false
  /-- INV7: MEM has the elements 0 .. N-1 -/
  mem_below : s.mem.below s.cfg.size = true
  /-- the list that stands for MEM is in its canonical form -/
  mem_wf : s.mem.wf = true

/-! ### Latches and trace (10_state.md R28, R29) -/

/-- The value an emission sends to AIND. -/
def Emission.toAind : Emission → Option Addr
  | .aind v => some v
  | _ => none

/-- The value an emission sends to DIND. -/
def Emission.toDind : Emission → Option Byte
  | .dind v => some v
  | _ => none

/-- The value an emission sends to WAIT. -/
def Emission.toWait : Emission → Option Bool
  | .wait v => some v
  | _ => none

/-- The value an emission sends to STAT. -/
def Emission.toStat : Emission → Option Bool
  | .stat v => some v
  | _ => none

/-- The value an emission sends to OUT. -/
def Emission.toOut : Emission → Option Byte
  | .out v => some v
  | _ => none

/-- The value an emission sends to DBGCPU. -/
def Emission.toDbgCpu : Emission → Option Text
  | .dbgCpu v => some v
  | _ => none

/-- The value an emission sends to DBGMEM. -/
def Emission.toDbgMem : Emission → Option Text
  | .dbgMem v => some v
  | _ => none

/-- The last value a trace sends to the sink that `pick` selects, or the construction value `dark`. -/
def lastSent {α : Type} (pick : Emission → Option α) (dark : α) (trace : List Emission) : α :=
  ((trace.filterMap pick).getLast?).getD dark

/-- Each of the seven latches holds the last value the trace sent to its sink, or its construction value. -/
structure State.LatchesHoldTrace (s : State) : Prop where
  aind : s.aind = lastSent Emission.toAind 0x0000#16 s.trace
  dind : s.dind = lastSent Emission.toDind 0x00#8 s.trace
  wait : s.wait = lastSent Emission.toWait false s.trace
  stat : s.stat = lastSent Emission.toStat false s.trace
  out : s.out = lastSent Emission.toOut 0x00#8 s.trace
  dbgCpu : s.dbgCpu = lastSent Emission.toDbgCpu [] s.trace
  dbgMem : s.dbgMem = lastSent Emission.toDbgMem [] s.trace

/-! ### The transition table (43_front_panel.md R150) -/

/-- The protocol state after an event; a bus transaction is no event of the table and changes none. -/
def nextProtocol : Instr → Protocol → Protocol
  | .pwron, .off => .onIdle
  | .pwron, p => p
  | .pwroff, _ => .off
  | .reset, .off => .off
  | .reset, _ => .onIdle
  | .run, .off => .off
  | .run, _ => .onRunning
  | .stop, .off => .off
  | .stop, _ => .onIdle
  | .step, p => p
  | .exam, p => p
  | .examnxt, p => p
  | .dep, p => p
  | .depnxt, p => p
  | .load _ _, p => p
  | .loadhex _ _, p => p
  | .memr _, p => p
  | .memw _ _, p => p
  | .ior _, p => p
  | .iow _ _, p => p
  | .tick, p => p
  | .reserved0, p => p
  | .reservedD, p => p
  | .reservedE, p => p
  | .reservedF, p => p

/-- The cells marked "ign" in the table: the event has no effect at all in that state. -/
def ignoredIn : Instr → Protocol → Bool
  | .pwron, p => p != .off
  | .pwroff, _ => false
  | .reset, p => p == .off
  | .run, p => p == .off
  | .stop, p => p == .off
  | .step, p => p != .onIdle
  | .exam, p => p == .off
  | .examnxt, p => p == .off
  | .dep, p => p == .off
  | .depnxt, p => p == .off
  | .load _ _, p => p == .off
  | .loadhex _ _, p => p == .off
  | .memr _, _ => false
  | .memw _ _, _ => false
  | .ior _, _ => false
  | .iow _ _, _ => false
  | .tick, _ => false
  | .reserved0, _ => true
  | .reservedD, _ => true
  | .reservedE, _ => true
  | .reservedF, _ => true

/-! ### The debug texts (40_common_procedures.md R107, R108) -/

/-- `t` is the numeral whose lower-case form is `digits`: the case of each digit is open. -/
def IsNumeral (digits t : Text) : Prop := t.map Char.toLower = digits

/-- `n` holds the numerals R107 asks for: PC and SP as 4 hex digits, A B C D E F H L as 2 each. -/
structure AreNumerals (r : Regs) (n : RegTexts) : Prop where
  pc : IsNumeral (hex4 false r.pc) n.pc
  sp : IsNumeral (hex4 false r.sp) n.sp
  a : IsNumeral (hex2 false r.a) n.a
  b : IsNumeral (hex2 false r.b) n.b
  c : IsNumeral (hex2 false r.c) n.c
  d : IsNumeral (hex2 false r.d) n.d
  e : IsNumeral (hex2 false r.e) n.e
  f : IsNumeral (hex2 false r.f) n.f
  h : IsNumeral (hex2 false r.h) n.h
  l : IsNumeral (hex2 false r.l) n.l

/-- What R107's sentence asks of the text `t` of the registers `r`: the ten numerals in order, then the name of each
set flag bit once and of no other, in any order; anything may stand between them and after. -/
def CpuTextShows (r : Regs) (t : Text) : Prop :=
  ∃ (labels numerals : RegTexts) (names : List (Text × EngineFlag)) (tail : Text),
    AreNumerals r numerals ∧
    (names.map Prod.snd).Nodup ∧ (∀ x, x ∈ names.map Prod.snd ↔ r.f.getLsbD x.bit = true) ∧
    t = regLine labels numerals ++ names.flatMap (fun p => p.1 ++ p.2.label) ++ tail

/-- What R108's sentence asks of the text `t` of the memory `bytes`: a row for each full 16 bytes, its start address
as 4 hex digits and its bytes as 2 each, separated as `Sep` says; anything may stand between address and first byte
and after each row, and a last row shorter than 16 bytes has any shape (in the tail). -/
def MemTextShows (bytes : List Byte) (t : Text) : Prop :=
  ∃ (addr gap after byte : Nat → Text) (tail : Text),
    (∀ r, IsNumeral (hex4 false (BitVec.ofNat 16 (16 * r))) (addr r)) ∧
    (∀ i, IsNumeral (hex2 false (bytes.getD i 0x00#8)) (byte i)) ∧
    t = ((List.range (bytes.length / 16)).flatMap fun r =>
      addr r ++ gap r ++ ((List.range 16).flatMap fun j => byteSep j ++ byte (16 * r + j)) ++ after r) ++ tail

/-! ### The engine step, transaction by transaction (40_common_procedures.md R104) -/

/-- `BusRun r s t`: carrying out the engine's run `r` from `s`, each transaction by the bus operation itself
(`exec` of MEMR, MEMW, IOR, IOW), the answer of a read given back to the engine, ends in `t`. -/
inductive BusRun : Run → State → State → Prop where
  | done (es : EngineState) (s : State) : BusRun (.done es) s { s with es := es }
  | memr {addr : Addr} {k : Byte → Run} {s u t : State} {v : Byte} :
      exec (.memr addr) s = .next u → u.reply = some v → BusRun (k v) u t → BusRun (.memr addr k) s t
  | memw {addr : Addr} {val : Byte} {k : Run} {s u t : State} :
      exec (.memw addr val) s = .next u → BusRun k u t → BusRun (.memw addr val k) s t
  | ior {port : Byte} {k : Byte → Run} {s u t : State} {v : Byte} :
      exec (.ior port) s = .next u → u.reply = some v → BusRun (k v) u t → BusRun (.ior port k) s t
  | iow {port val : Byte} {k : Run} {s u t : State} :
      exec (.iow port val) s = .next u → BusRun k u t → BusRun (.iow port val k) s t

/-! ### Sequences of operations -/

/-- `k` steps of the machine, stopping at the first step that gives no next state. -/
def runSteps : Nat → State → Host.Outcome State Fault Refusal
  | 0, s => .next s
  | k + 1, s =>
    match step s with
    | .next s' => runSteps k s'
    | .fault e => .fault e
    | .refused e => .refused e

/-- LOADHEX as one-byte LOADs (30_encoding.md R90): token by token from address `a`, a natural number; an
address no LOAD header can hold is past the end of every memory. -/
def oneByteLoads (a : Nat) : List Text → State → Host.Outcome State Fault Refusal
  | [], s => .next s
  | t :: ts, s =>
    match tokenByte t with
    | none => oneByteLoads (a + 1) ts s
    | some v =>
      if a < 65536 then
        match exec (.load (BitVec.ofNat 16 a) [v]) s with
        | .next s' => oneByteLoads (a + 1) ts s'
        | .fault e => .fault e
        | .refused e => .refused e
      else oneByteLoads (a + 1) ts s

/-- `SW address; EXAM; SW bytes[0]; DEP; SW bytes[1]; DEPNXT; ...` (44_bulk_load.md R161) as events. -/
def depositScript (address : Addr) : List Byte → List Input
  | [] => [.switches address, .request (encode .exam)]
  | b :: bs =>
    [.switches address, .request (encode .exam), .switches (b.zeroExtend 16), .request (encode .dep)]
      ++ bs.flatMap fun v => [.switches (v.zeroExtend 16), .request (encode .depnxt)]

end Machine

end Sys2Proof
end

