-- ==== Sys2Proof/Certificates/Slice0/Obligations.lean ====
section
/-! DEFINITION. The statements for the provers. Each docstring names the rule of spec/ it formalises. A statement
about the machine's engine holds for every engine, since `Config.engine` is opaque. -/

open Sys2Proof Sys2Proof.Machine

/-! ### Encoding -/

/-- 30_encoding.md R81 to R84, R91: every operation, with every operand at every value, decodes back from the
request that encodes it. -/
def Obligations.EncodedOperationsDecodeBack : Prop :=
  ∀ i : Instr, decode (encode i) = .ok i

/-- 30_encoding.md R88, R91: decoding is total on the requests of the four formats, and the encoder gives the
request back, but for the bits of a bus word that R83 ignores. -/
def Obligations.WellFormedRequestsDecode : Prop :=
  ∀ r : Request, r.wellFormed = true →
    ∃ i, decode r = .ok i ∧ (r.fromEngine = false → encode i = r) ∧ i.isBus = r.fromEngine

/-- 30_encoding.md R91: the decode procedure: each command code, the two loaders with their payloads, and each
field of a bus word; for a port, addr[15:8] is ignored, and for a read, data is. -/
def Obligations.DecodeProcedure : Prop :=
  (decode (.c 0x1#4) = .ok .pwron ∧ decode (.c 0x2#4) = .ok .pwroff ∧ decode (.c 0x3#4) = .ok .reset ∧
    decode (.c 0x4#4) = .ok .run ∧ decode (.c 0x5#4) = .ok .stop ∧ decode (.c 0x6#4) = .ok .step ∧
    decode (.c 0x7#4) = .ok .exam ∧ decode (.c 0x8#4) = .ok .examnxt ∧ decode (.c 0x9#4) = .ok .dep ∧
    decode (.c 0xA#4) = .ok .depnxt ∧ decode (.c 0x0#4) = .ok .reserved0 ∧ decode (.c 0xD#4) = .ok .reservedD ∧
    decode (.c 0xE#4) = .ok .reservedE ∧ decode (.c 0xF#4) = .ok .reservedF) ∧
  (∀ (laddr : Addr) (bytes : List Byte) (text : Text),
    decode (.cl (0xB#4 ++ laddr) (.bytes bytes)) = .ok (.load laddr bytes) ∧
    decode (.cl (0xC#4 ++ laddr) (.text text)) = .ok (.loadhex laddr text)) ∧
  ∀ (hi lo data : Byte),
    decode (.b (0b00#2 ++ (hi ++ lo) ++ data)) = .ok (.memr (hi ++ lo)) ∧
    decode (.b (0b01#2 ++ (hi ++ lo) ++ data)) = .ok (.memw (hi ++ lo) data) ∧
    decode (.b (0b10#2 ++ (hi ++ lo) ++ data)) = .ok (.ior lo) ∧
    decode (.b (0b11#2 ++ (hi ++ lo) ++ data)) = .ok (.iow lo data)

/-- Words of 95_test_vectors.md 2.2, 2.6, 2.7 decode to the operations they stand for. -/
def Obligations.SpecWordsDecode : Prop :=
  decode (.c 0x1#4) = .ok .pwron ∧ decode (.c 0x9#4) = .ok .dep ∧ decode (.c 0xE#4) = .ok .reservedE ∧
  decode (.cl 0xB0002#20 (.bytes [0xC3#8])) = .ok (.load 0x0002#16 [0xC3#8]) ∧
  decode (.cl 0xC0006#20 (.text ['0', '1'])) = .ok (.loadhex 0x0006#16 ['0', '1']) ∧
  decode (.b 0x0000A00#26) = .ok (.memr 0x000A#16) ∧
  decode (.b 0x1FFFF12#26) = .ok (.memw 0xFFFF#16 0x12#8) ∧
  decode (.b 0x212FF00#26) = .ok (.ior 0xFF#8) ∧
  decode (.b 0x300FF81#26) = .ok (.iow 0xFF#8 0x81#8) ∧
  decode (.t 1#1) = .ok .tick

/-! ### The step -/

/-- The next request of the queue, decoded, is what a step runs; the step removes it from the queue and adds
nothing of its own (the model's queue, log 1; 00_scope.md R8). -/
def Obligations.StepRunsTheDecodedRequest : Prop :=
  ∀ (s : State) (r : Request) (rest : List Input) (i : Instr),
    s.inputs = .request r :: rest → decode r = .ok i → step s = exec i { s with inputs := rest }

/-- 10_state.md R30: the environment changes SW between two atomic operations, and nothing else changes. -/
def Obligations.StepTakesASwitchChange : Prop :=
  ∀ (s : State) (w : Addr) (rest : List Input),
    s.inputs = .switches w :: rest → step s = .next { s with inputs := rest, sw := w }

/-- With no event waiting the outstanding tick fires, and with none outstanding the machine is quiescent (the
model's schedule, log 1; 42_scheduler.md R132, 70_reset_and_hazards.md R206). -/
def Obligations.StepWithNoEventFiresThePendingTick : Prop :=
  ∀ s : State, s.inputs = [] →
    (s.tp = true → step s = exec .tick s) ∧ (s.tp = false → step s = .next s)

/-- A request that decodes to no operation is refused by its reason (the model's choice, log 13). -/
def Obligations.StepRefusesAMalformedRequest : Prop :=
  ∀ (s : State) (r : Request) (rest : List Input) (why : DecodeError),
    s.inputs = .request r :: rest → decode r = .error why →
      step s = .refused (.malformedRequest why) ∧ r.wellFormed = false

/-! ### Reserved codes and totality -/

/-- 30_encoding.md R87: the four reserved codes decode to the reserved operations, which change nothing in any
state. -/
def Obligations.ReservedCodesAreIgnored : Prop :=
  decode (.c 0x0#4) = .ok .reserved0 ∧ decode (.c 0xD#4) = .ok .reservedD ∧
  decode (.c 0xE#4) = .ok .reservedE ∧ decode (.c 0xF#4) = .ok .reservedF ∧
  ∀ s : State, exec .reserved0 s = .next s ∧ exec .reservedD s = .next s ∧
    exec .reservedE s = .next s ∧ exec .reservedF s = .next s

/-- 60_exceptions.md R170: every operation ends in a next state, in every state. -/
def Obligations.EveryOperationYieldsANextState : Prop :=
  ∀ (i : Instr) (s : State), ∃ t, exec i s = .next t

/-- 60_exceptions.md R170: a step whose next request, if any, is one of the four formats yields a next state. -/
def Obligations.StepOnWellFormedEventsYieldsANextState : Prop :=
  ∀ s : State, (∀ r, s.inputs.head? = some (.request r) → r.wellFormed = true) → ∃ t, step s = .next t

/-! ### Memory and the Bus Adapter -/

/-- 20_memory.md R51, R52 (with R50, R53): a read answers the byte at the address modulo N; a write sets that byte,
for every alias of the address, and changes nothing else. -/
def Obligations.MemoryIsAddressedModuloN : Prop :=
  (∀ (s : State) (a : Nat), memRead s a = Memory.read s.mem (a % s.cfg.size)) ∧
  ∀ (s : State) (a : Nat) (v : Byte), s.mem.wf = true →
    memWrite a v s = { s with mem := (memWrite a v s).mem } ∧
    ∀ b : Nat, memRead (memWrite a v s) b = if b % s.cfg.size = a % s.cfg.size then v else memRead s b

/-- 41_bus_adapter.md R120: MEMR answers `MEM[addr mod N]` (in the model's reply field, log 6); nothing else changes. -/
def Obligations.MemrAnswersTheReducedAddress : Prop :=
  ∀ (s : State) (addr : Addr) (data : Byte),
    decode (.b (0b00#2 ++ addr ++ data)) = .ok (.memr addr) ∧
    exec (.memr addr) s = .next { s with reply := some (Memory.read s.mem (addr.toNat % s.cfg.size)) }

/-- 41_bus_adapter.md R121 (with 20_memory.md R52, R53): MEMW writes the byte at `addr mod N`, which every alias of
`addr` then reads; every other byte and every other part of the state is unchanged. -/
def Obligations.MemwWritesOneByteAndItsAliases : Prop :=
  ∀ (s : State) (addr : Addr) (val : Byte), s.mem.wf = true →
    decode (.b (0b01#2 ++ addr ++ val)) = .ok (.memw addr val) ∧
    ∃ t, exec (.memw addr val) s = .next t ∧ t = { s with mem := t.mem } ∧
      ∀ b : Nat, memRead t b = if b % s.cfg.size = addr.toNat % s.cfg.size then val else memRead s b

/-- 41_bus_adapter.md R122: IOR answers the upper byte of the switch word at port 0xFF when a switch source is
present, 0x00 otherwise (in the model's reply field, log 6); nothing else changes. -/
def Obligations.IorAnswersTheSwitchHighByte : Prop :=
  ∀ (s : State) (hi port data : Byte),
    decode (.b (0b10#2 ++ (hi ++ port) ++ data)) = .ok (.ior port) ∧
    exec (.ior port) s =
      .next { s with
        reply := some (if port = 0xFF#8 ∧ s.cfg.swPresent = true then s.sw.extractLsb' 8 8 else 0x00#8) }

/-- 41_bus_adapter.md R123: IOW drives OUT at port 0xFF, bit i of the byte being element i of the list the
indicator receives; any other port swallows the write. -/
def Obligations.IowDrivesTheOutputIndicator : Prop :=
  ∀ (s : State) (hi port val : Byte),
    decode (.b (0b11#2 ++ (hi ++ port) ++ val)) = .ok (.iow port val) ∧
    exec (.iow port val) s =
      .next (if port = 0xFF#8 then { s with out := val, trace := s.trace ++ [.out val] } else s) ∧
    indicatorBits val = [val.getLsbD 0, val.getLsbD 1, val.getLsbD 2, val.getLsbD 3, val.getLsbD 4, val.getLsbD 5,
      val.getLsbD 6, val.getLsbD 7]

/-- 41_bus_adapter.md R125: writing port 0xFF does not change what reading a port returns. -/
def Obligations.PortHalvesAreIndependent : Prop :=
  ∀ (s : State) (port port' val : Byte),
    ∃ t u v, exec (.iow port val) s = .next t ∧ exec (.ior port') t = .next u ∧
      exec (.ior port') s = .next v ∧ u.reply = v.reply

/-! ### The engine step -/

/-- 40_common_procedures.md R104: carrying out an engine's run transaction by transaction ends, in one state. -/
def Obligations.BusRunEndsInOneState : Prop :=
  ∀ (r : Run) (s : State), ∃ t, BusRun r s t ∧ ∀ u, BusRun r s u → u = t

/-- 60_exceptions.md R180, 40_common_procedures.md R104: what an engine can change through the four bus
transactions: MEM, OUT with its emissions, and ES (and the model's reply). MEM keeps its form and its N elements. -/
def Obligations.BusRunTouchesOnlyMemoryAndOutput : Prop :=
  ∀ (r : Run) (s t : State), BusRun r s t →
    t = { s with mem := t.mem, es := t.es, out := t.out, reply := t.reply, trace := t.trace } ∧
    (∃ vs : List Byte, t.trace = s.trace ++ vs.map .out ∧ t.out = vs.getLast?.getD s.out) ∧
    (s.mem.wf = true → t.mem.wf = true) ∧
    (s.mem.below s.cfg.size = true → t.mem.below s.cfg.size = true)

/-! ### The scheduler -/

/-- 42_scheduler.md R133 (with 40_common_procedures.md R102, R103): a tick that finds RUN = 1 carries out one
`ENGINE.step` of `CLOCK_RATE_HZ div 1000` cycles, shows the engine's pc and its byte, refreshes both texts and
reschedules; one that finds RUN = 0 only clears TP. -/
def Obligations.TickRunsOneSlice : Prop :=
  decode (.t 1#1) = .ok .tick ∧
  (∀ s : State, s.tp = true → s.run = false → exec .tick s = .next { s with tp := false }) ∧
  ∀ s : State, s.tp = true → s.run = true →
    ∃ u, BusRun (Config.engine.step (s.clockRateHz / 1000) s.es) { s with tp := false } u ∧
      exec .tick s = .next { u with
        tp := true
        aind := (Config.engine.status u.es).pc
        dind := Memory.read u.mem ((Config.engine.status u.es).pc.toNat % s.cfg.size)
        dbgCpu := fmtCpu Config.cpuFormat (Config.engine.status u.es)
        dbgMem := fmtMem Config.memFormat s.cfg.size (Memory.read u.mem)
        trace := u.trace ++
          [.aind (Config.engine.status u.es).pc,
           .dind (Memory.read u.mem ((Config.engine.status u.es).pc.toNat % s.cfg.size)),
           .dbgCpu (fmtCpu Config.cpuFormat (Config.engine.status u.es)),
           .dbgMem (fmtMem Config.memFormat s.cfg.size (Memory.read u.mem))] }

/-- A tick asked for when none is outstanding does nothing (the model's choice, log 7; 42_scheduler.md R132). -/
def Obligations.TickNotPendingDoesNothing : Prop :=
  ∀ s : State, s.tp = false → exec .tick s = .next s

/-! ### Power, reset, run, stop, step -/

/-- 20_memory.md R54: the fill writes every byte of MEM, with 0x00 or, in the RANDOM mode, with free values (the
model's form of the draws, log 9, whatever the counter holds), and nothing else of the spec's state. -/
def Obligations.FillWritesEveryByte : Prop :=
  ∀ s : State,
    fill s = { s with mem := (fill s).mem, drawn := (fill s).drawn } ∧
    (fill s).mem.wf = true ∧ (fill s).mem.below s.cfg.size = true ∧
    (s.cfg.fillMode = .zero → (∀ a, memRead (fill s) a = 0x00#8) ∧ (fill s).drawn = s.drawn) ∧
    (s.cfg.fillMode = .random →
      (∀ a, memRead (fill s) a = Config.draw (s.drawn + a % s.cfg.size)) ∧ (fill s).drawn = s.drawn + s.cfg.size)

/-- 43_front_panel.md R140: PWRON from OFF: its whole effect (`fill` is FillWritesEveryByte's); while on it is
ignored. -/
def Obligations.PwronRefillsAndLights : Prop :=
  decode (.c 0x1#4) = .ok .pwron ∧
  ∀ s : State,
    (s.pwr = true → exec .pwron s = .next s) ∧
    (s.pwr = false → exec .pwron s = .next { fill s with
      es := Config.engine.reset s.es
      la := 0x0000#16
      pwr := true
      stat := true
      wait := true
      trace := s.trace ++ [.stat true, .wait true] })

/-- 43_front_panel.md R141, 40_common_procedures.md R105: PWROFF, from any state: its whole effect. -/
def Obligations.PwroffClearsThePanel : Prop :=
  decode (.c 0x2#4) = .ok .pwroff ∧
  ∀ s : State,
    exec .pwroff s = .next { s with
      aind := 0x0000#16
      dind := 0x00#8
      stat := false
      wait := false
      dbgCpu := []
      dbgMem := []
      run := false
      pwr := false
      trace := s.trace ++
        [.aind 0x0000#16, .dind 0x00#8, .stat false, .wait false, .dbgCpu [], .dbgMem []] }

/-- 43_front_panel.md R142, 40_common_procedures.md R106: RESET: its whole effect; MEM, WAIT and TP keep their
values. -/
def Obligations.ResetRestartsAndFlashes : Prop :=
  decode (.c 0x3#4) = .ok .reset ∧
  (∀ s : State, s.pwr = false → exec .reset s = .next s) ∧
  ∀ s : State, s.pwr = true →
    exec .reset s = .next { s with
      es := Config.engine.reset s.es
      run := false
      la := 0x0000#16
      aind := 0x0000#16
      dind := 0x00#8
      dbgCpu := fmtCpu Config.cpuFormat (Config.engine.status (Config.engine.reset s.es))
      dbgMem := fmtMem Config.memFormat s.cfg.size (Memory.read s.mem)
      trace := s.trace ++
        [.aind 0xFFFF#16, .dind 0xFF#8, .aind 0x0000#16, .dind 0x00#8,
         .dbgCpu (fmtCpu Config.cpuFormat (Config.engine.status (Config.engine.reset s.es))),
         .dbgMem (fmtMem Config.memFormat s.cfg.size (Memory.read s.mem))] }

/-- 43_front_panel.md R143, 42_scheduler.md R130: the RUN command: its whole effect; no engine cycle runs. -/
def Obligations.RunCommandSchedulesOneTick : Prop :=
  decode (.c 0x4#4) = .ok .run ∧
  (∀ s : State, s.pwr = false → exec .run s = .next s) ∧
  ∀ s : State, s.pwr = true →
    exec .run s = .next { s with run := true, tp := true, wait := false, trace := s.trace ++ [.wait false] }

/-- 43_front_panel.md R144, 42_scheduler.md R131: STOP: its whole effect; the outstanding tick stays. -/
def Obligations.StopClearsRunAndLightsWait : Prop :=
  decode (.c 0x5#4) = .ok .stop ∧
  (∀ s : State, s.pwr = false → exec .stop s = .next s) ∧
  ∀ s : State, s.pwr = true →
    exec .stop s = .next { s with run := false, wait := true, trace := s.trace ++ [.wait true] }

/-- 43_front_panel.md R145 (with 40_common_procedures.md R102, R103): STEP in ON_IDLE carries out one `ENGINE.step`
of one cycle, shows the engine's pc and its byte, and refreshes both texts; otherwise it is ignored. -/
def Obligations.StepCommandRunsOneCycle : Prop :=
  decode (.c 0x6#4) = .ok .step ∧
  (∀ s : State, s.pwr = false ∨ s.run = true → exec .step s = .next s) ∧
  ∀ s : State, s.pwr = true → s.run = false →
    ∃ u, BusRun (Config.engine.step 1 s.es) s u ∧
      exec .step s = .next { u with
        aind := (Config.engine.status u.es).pc
        dind := Memory.read u.mem ((Config.engine.status u.es).pc.toNat % s.cfg.size)
        dbgCpu := fmtCpu Config.cpuFormat (Config.engine.status u.es)
        dbgMem := fmtMem Config.memFormat s.cfg.size (Memory.read u.mem)
        trace := u.trace ++
          [.aind (Config.engine.status u.es).pc,
           .dind (Memory.read u.mem ((Config.engine.status u.es).pc.toNat % s.cfg.size)),
           .dbgCpu (fmtCpu Config.cpuFormat (Config.engine.status u.es)),
           .dbgMem (fmtMem Config.memFormat s.cfg.size (Memory.read u.mem))] }

/-! ### Examine and deposit -/

/-- 43_front_panel.md R146: EXAM: its whole effect, for a present and an absent switch source (10_state.md R30). -/
def Obligations.ExamLoadsTheCursorAndShowsIt : Prop :=
  decode (.c 0x7#4) = .ok .exam ∧
  (∀ s : State, s.pwr = false → exec .exam s = .next s) ∧
  ∀ (s : State) (a : Addr), s.pwr = true → a = (if s.cfg.swPresent = true then s.sw else 0x0000#16) →
    exec .exam s = .next { s with
      la := a
      aind := a
      dind := Memory.read s.mem (a.toNat % s.cfg.size)
      dbgCpu := fmtCpu Config.cpuFormat (Config.engine.status s.es)
      dbgMem := fmtMem Config.memFormat s.cfg.size (Memory.read s.mem)
      trace := s.trace ++
        [.aind a, .dind (Memory.read s.mem (a.toNat % s.cfg.size)),
         .dbgCpu (fmtCpu Config.cpuFormat (Config.engine.status s.es)),
         .dbgMem (fmtMem Config.memFormat s.cfg.size (Memory.read s.mem))] }

/-- 43_front_panel.md R147: EXAMNXT: its whole effect; the new cursor is `(LA + 1) mod 65536`. -/
def Obligations.ExamnxtAdvancesTheCursorAndShowsIt : Prop :=
  decode (.c 0x8#4) = .ok .examnxt ∧
  (∀ s : State, s.pwr = false → exec .examnxt s = .next s) ∧
  ∀ (s : State) (a : Addr), s.pwr = true → a.toNat = (s.la.toNat + 1) % 65536 →
    exec .examnxt s = .next { s with
      la := a
      aind := a
      dind := Memory.read s.mem (a.toNat % s.cfg.size)
      dbgCpu := fmtCpu Config.cpuFormat (Config.engine.status s.es)
      dbgMem := fmtMem Config.memFormat s.cfg.size (Memory.read s.mem)
      trace := s.trace ++
        [.aind a, .dind (Memory.read s.mem (a.toNat % s.cfg.size)),
         .dbgCpu (fmtCpu Config.cpuFormat (Config.engine.status s.es)),
         .dbgMem (fmtMem Config.memFormat s.cfg.size (Memory.read s.mem))] }

/-- 43_front_panel.md R148: DEP stores `SW[7:0]` at the cursor, which stays, and shows it: its whole effect. -/
def Obligations.DepStoresAtTheCursor : Prop :=
  decode (.c 0x9#4) = .ok .dep ∧
  (∀ s : State, s.pwr = false → exec .dep s = .next s) ∧
  ∀ (s : State) (v : Byte), s.pwr = true → s.mem.wf = true →
    v = (if s.cfg.swPresent = true then s.sw.extractLsb' 0 8 else 0x00#8) →
    ∃ t, exec .dep s = .next t ∧
      (∀ b : Nat, memRead t b = if b % s.cfg.size = s.la.toNat % s.cfg.size then v else memRead s b) ∧
      t = { s with
        mem := t.mem
        aind := s.la
        dind := v
        dbgCpu := fmtCpu Config.cpuFormat (Config.engine.status s.es)
        dbgMem := fmtMem Config.memFormat s.cfg.size (Memory.read t.mem)
        trace := s.trace ++
          [.aind s.la, .dind v, .dbgCpu (fmtCpu Config.cpuFormat (Config.engine.status s.es)),
           .dbgMem (fmtMem Config.memFormat s.cfg.size (Memory.read t.mem))] }

/-- 43_front_panel.md R149: DEPNXT advances the cursor first, then deposits there: its whole effect. -/
def Obligations.DepnxtAdvancesThenStores : Prop :=
  decode (.c 0xA#4) = .ok .depnxt ∧
  (∀ s : State, s.pwr = false → exec .depnxt s = .next s) ∧
  ∀ (s : State) (a : Addr) (v : Byte), s.pwr = true → s.mem.wf = true →
    a.toNat = (s.la.toNat + 1) % 65536 →
    v = (if s.cfg.swPresent = true then s.sw.extractLsb' 0 8 else 0x00#8) →
    ∃ t, exec .depnxt s = .next t ∧
      (∀ b : Nat, memRead t b = if b % s.cfg.size = a.toNat % s.cfg.size then v else memRead s b) ∧
      t = { s with
        la := a
        mem := t.mem
        aind := a
        dind := v
        dbgCpu := fmtCpu Config.cpuFormat (Config.engine.status s.es)
        dbgMem := fmtMem Config.memFormat s.cfg.size (Memory.read t.mem)
        trace := s.trace ++
          [.aind a, .dind v, .dbgCpu (fmtCpu Config.cpuFormat (Config.engine.status s.es)),
           .dbgMem (fmtMem Config.memFormat s.cfg.size (Memory.read t.mem))] }

/-- 43_front_panel.md R151: every command but PWRON and PWROFF is ignored while powered off. -/
def Obligations.PowerGateIgnoresCommands : Prop :=
  ∀ (s : State) (a : Addr) (bytes : List Byte) (text : Text) (i : Instr), s.pwr = false →
    i ∈ [.reset, .run, .stop, .step, .exam, .examnxt, .dep, .depnxt, .load a bytes, .loadhex a text] →
    exec i s = .next s

/-! ### Bulk load -/

/-- 44_bulk_load.md R160, 20_memory.md R55: LOAD writes `bytes[i]` at `address + i` while that is below N, never
wraps, and changes nothing else; powered off it does nothing. -/
def Obligations.LoadWritesWithoutWrapping : Prop :=
  ∀ (s : State) (address : Addr) (bytes : List Byte),
    decode (.cl (0xB#4 ++ address) (.bytes bytes)) = .ok (.load address bytes) ∧
    (s.pwr = false → exec (.load address bytes) s = .next s) ∧
    (s.pwr = true → s.mem.wf = true →
      ∃ t, exec (.load address bytes) s = .next t ∧ t = { s with mem := t.mem } ∧
        ∀ x : Nat, Memory.read t.mem x =
          if address.toNat ≤ x ∧ x < address.toNat + bytes.length ∧ x < s.cfg.size
          then bytes.getD (x - address.toNat) 0x00#8 else Memory.read s.mem x)

/-- 44_bulk_load.md R162: LOADHEX writes the value of each valid token at `address` plus its index among all
tokens while that is below N, skips invalid tokens, and changes nothing else; powered off it does nothing. -/
def Obligations.LoadhexPlacesTokensAtTheirSlots : Prop :=
  ∀ (s : State) (address : Addr) (text : Text),
    decode (.cl (0xC#4 ++ address) (.text text)) = .ok (.loadhex address text) ∧
    (s.pwr = false → exec (.loadhex address text) s = .next s) ∧
    (s.pwr = true → s.mem.wf = true →
      ∃ t, exec (.loadhex address text) s = .next t ∧ t = { s with mem := t.mem } ∧
        ∀ x : Nat, Memory.read t.mem x =
          if address.toNat ≤ x ∧ x < s.cfg.size then
            (((tokens text)[x - address.toNat]?).bind tokenByte).getD (Memory.read s.mem x)
          else Memory.read s.mem x)

/-- 30_encoding.md R90: LOADHEX has exactly the effect of the sequence of one-byte LOADs of its valid tokens. -/
def Obligations.LoadhexIsASequenceOfLoads : Prop :=
  ∀ (s : State) (address : Addr) (text : Text),
    exec (.loadhex address text) s = oneByteLoads address.toNat (tokens text) s

/-- 44_bulk_load.md R161: where the load does not pass the end of memory, the session that sets the cursor and
deposits the bytes one by one leaves MEM as LOAD does; LOAD leaves the cursor and the latches alone. The
session's events are given in the model's queue (log 1). -/
def Obligations.LoadEqualsDeposits : Prop :=
  ∀ (s : State) (address : Addr) (bytes : List Byte) (rest : List Input),
    s.pwr = true → s.cfg.swPresent = true → address.toNat + bytes.length ≤ s.cfg.size →
    s.inputs = depositScript address bytes ++ rest →
    ∃ t u, runSteps (depositScript address bytes).length s = .next t ∧
      exec (.load address bytes) s = .next u ∧
      t.mem = u.mem ∧ u = { s with mem := u.mem } ∧
      t.inputs = rest ∧ t.la.toNat = address.toNat + (bytes.length - 1)

/-- 44_bulk_load.md R163: `Tokens(text)` is the list of the maximal runs of non-whitespace characters; a token is
valid exactly if it is one or two hex digits of either case; its value is the number it denotes in base 16. -/
def Obligations.TokensValidityAndValue : Prop :=
  (∀ c : Char, isWhitespace c = true ↔ c = ' ' ∨ c = '\t' ∨ c = '\n' ∨ c = '\r') ∧
  tokens [] = [] ∧
  (∀ (w : Char) (text : Text), isWhitespace w = true → tokens (w :: text) = tokens text) ∧
  (∀ t : Text, t ≠ [] → (∀ c ∈ t, isWhitespace c = false) → tokens t = [t]) ∧
  (∀ (t : Text) (w : Char) (text : Text), t ≠ [] → (∀ c ∈ t, isWhitespace c = false) →
    isWhitespace w = true → tokens (t ++ w :: text) = t :: tokens text) ∧
  (∀ t : Text, (tokenByte t).isSome = true ↔
    (t.length = 1 ∨ t.length = 2) ∧ ∀ c ∈ t, c ∈ "0123456789abcdefABCDEF".toList) ∧
  (∀ (t : Text) (v : Byte), tokenByte t = some v →
    v.toNat = t.foldl (fun n c => 16 * n + ("0123456789abcdef".toList.idxOf c.toLower)) 0)

/-! ### Debug texts -/

/-- 40_common_procedures.md R109: `hex2` and `hex4` are the two- and four-digit lower-case numerals, most
significant digit first. -/
def Obligations.HexNumerals : Prop :=
  (∀ v : Byte, hex2 false v =
    ["0123456789abcdef".toList.getD (v.toNat / 16) '?', "0123456789abcdef".toList.getD (v.toNat % 16) '?']) ∧
  ∀ v : Addr, hex4 false v =
    ["0123456789abcdef".toList.getD (v.toNat / 4096) '?', "0123456789abcdef".toList.getD (v.toNat / 256 % 16) '?',
     "0123456789abcdef".toList.getD (v.toNat / 16 % 16) '?', "0123456789abcdef".toList.getD (v.toNat % 16) '?']

/-- 40_common_procedures.md R107: the conforming instance of the CPU text (decision D22), for every register value. -/
def Obligations.ConformingCpuText : Prop :=
  ∀ r : Regs, fmtCpu conformingCpuFormat r =
    "PC:".toList ++ hex4 false r.pc ++ " SP:".toList ++ hex4 false r.sp
      ++ " A:".toList ++ hex2 false r.a ++ " B:".toList ++ hex2 false r.b ++ " C:".toList ++ hex2 false r.c
      ++ " D:".toList ++ hex2 false r.d ++ " E:".toList ++ hex2 false r.e ++ " F:".toList ++ hex2 false r.f
      ++ " H:".toList ++ hex2 false r.h ++ " L:".toList ++ hex2 false r.l
      ++ (if r.f.getLsbD 7 then " SIGN".toList else []) ++ (if r.f.getLsbD 6 then " ZERO".toList else [])
      ++ (if r.f.getLsbD 4 then " AC".toList else []) ++ (if r.f.getLsbD 2 then " PARITY".toList else [])
      ++ (if r.f.getLsbD 0 then " CARRY".toList else [])

/-- 40_common_procedures.md R107, 00_scope.md R5: the formats the model admits are exactly the functions of the
registers whose every text shows what R107 asks (the reading of R107 is log 12's). -/
def Obligations.CpuFormatsAreAllOfThem : Prop :=
  ∀ f : Regs → Text, (∃ F : CpuFormat, ∀ r, fmtCpu F r = f r) ↔ ∀ r, CpuTextShows r (f r)

/-- 40_common_procedures.md R108, 00_scope.md R5: the formats the model admits are exactly the functions of the bytes
of MEM whose every text shows what R108 asks, whatever follows a row and whatever shape a last row shorter than 16
bytes has (the reading of R108 is log 12's). -/
def Obligations.MemFormatsAreAllOfThem : Prop :=
  ∀ f : List Byte → Text,
    (∃ F : MemFormat, ∀ bytes, fmtMem F bytes.length (fun i => bytes.getD i 0x00#8) = f bytes) ↔
      ∀ bytes, MemTextShows bytes (f bytes)

/-- 40_common_procedures.md R108: the conforming memory text (decision D22) is its rows joined by a line feed, with
none after the last. -/
def Obligations.ConformingMemText : Prop :=
  ∀ (n : Nat) (byteAt : Nat → Byte),
    fmtMem conformingMemFormat n byteAt =
      List.intercalate ['\n'] ((List.range ((n + 15) / 16)).map fun r =>
        hex4 false (BitVec.ofNat 16 (16 * r)) ++ [' ']
          ++ ((List.range (min 16 (n - 16 * r))).map
              fun j => byteSep j ++ hex2 false (byteAt (16 * r + j))).flatten)

/-- 40_common_procedures.md R108: a row of the conforming memory text (decision D22), cut at white space, is its
start address as 4 hex digits followed by its bytes as 2 hex digits each, at most 16. -/
def Obligations.MemoryRowShowsItsBytes : Prop :=
  ∀ (n r : Nat) (byteAt : Nat → Byte), 16 * r < n →
    tokens (memRow (conformingMemStyle n) n byteAt r) =
      hex4 false (BitVec.ofNat 16 (16 * r)) ::
        (List.range (min 16 (n - 16 * r))).map fun j => hex2 false (byteAt (16 * r + j))

/-! ### Who writes what -/

/-- 10_state.md R22, R25: the writers of PWR, RUN and TP. -/
def Obligations.WritersOfTheFlags : Prop :=
  ∀ (i : Instr) (s t : State), exec i s = .next t →
    (s.pwr = false → t.pwr = true → i = .pwron) ∧ (s.pwr = true → t.pwr = false → i = .pwroff) ∧
    (s.run = false → t.run = true → i = .run) ∧
    (s.run = true → t.run = false → i = .stop ∨ i = .reset ∨ i = .pwroff) ∧
    (s.tp = false → t.tp = true → i = .run) ∧ (s.tp = true → t.tp = false → i = .tick)

/-- 10_state.md R23: the writers of LA. -/
def Obligations.WritersOfTheCursor : Prop :=
  ∀ (i : Instr) (s t : State), exec i s = .next t →
    t.la = s.la ∨ i = .pwron ∨ i = .reset ∨ i = .exam ∨ i = .examnxt ∨ i = .depnxt

/-- 10_state.md R21: the writers of MEM: the fill of PWRON, DEP, DEPNXT, LOAD, LOADHEX, and MEMW, which STEP and
TICK reach through the engine. -/
def Obligations.WritersOfMemory : Prop :=
  ∀ (i : Instr) (s t : State), exec i s = .next t →
    t.mem = s.mem ∨ i = .pwron ∨ i = .dep ∨ i = .depnxt ∨ (∃ a v, i = .memw a v) ∨
    (∃ a bs, i = .load a bs) ∨ (∃ a tx, i = .loadhex a tx) ∨ (i = .step ∧ s.pwr = true ∧ s.run = false) ∨
    (i = .tick ∧ s.tp = true ∧ s.run = true)

/-- 10_state.md R26: the writers of ES: ENGINE.reset in PWRON and RESET, ENGINE.step in STEP and TICK. -/
def Obligations.WritersOfTheEngineState : Prop :=
  ∀ (i : Instr) (s t : State), exec i s = .next t →
    t.es = s.es ∨ i = .pwron ∨ i = .reset ∨ (i = .step ∧ s.pwr = true ∧ s.run = false) ∨
    (i = .tick ∧ s.tp = true ∧ s.run = true)

/-- 10_state.md R28: the writers of WAIT, STAT and OUT. -/
def Obligations.WritersOfTheIndicators : Prop :=
  ∀ (i : Instr) (s t : State), exec i s = .next t →
    (t.wait = s.wait ∨ i = .pwron ∨ i = .run ∨ i = .stop ∨ i = .pwroff) ∧
    (t.stat = s.stat ∨ i = .pwron ∨ i = .pwroff) ∧
    (t.out = s.out ∨ (∃ v, i = .iow 0xFF#8 v) ∨ (i = .step ∧ s.pwr = true ∧ s.run = false) ∨
      (i = .tick ∧ s.tp = true ∧ s.run = true))

/-- 10_state.md R24, R20: no step changes CLOCK_RATE_HZ or the configuration (N among it: memory is never
resized). -/
def Obligations.ConfigurationNeverChanges : Prop :=
  ∀ s t : State, step s = .next t → t.cfg = s.cfg ∧ t.clockRateHz = s.clockRateHz

/-- 43_front_panel.md R150: the transition table, for every operation in every legal protocol state: the state
after it, the cells where it has no effect at all, and what a pending tick does to TP. -/
def Obligations.TransitionTable : Prop :=
  ∀ (i : Instr) (s : State) (p : Protocol), protocol s = some p →
    ∃ t, exec i s = .next t ∧ protocol t = some (nextProtocol i p) ∧
      (ignoredIn i p = true → t = s) ∧
      (i = .tick → s.tp = true → (t.tp = true ↔ p = .onRunning))

/-! ### What the operations cannot see -/

/-- 70_reset_and_hazards.md R205, 10_state.md R39: a STEP or a tick runs the same whatever the cursor holds and
leaves it where it was. -/
def Obligations.EngineStepsIgnoreTheCursor : Prop :=
  ∀ (s : State) (a : Addr) (i : Instr), i = .step ∨ i = .tick →
    ∃ t, exec i s = .next t ∧ exec i { s with la := a } = .next { t with la := a }

/-- 41_bus_adapter.md R122: the low switch byte cannot reach the engine: a STEP or a tick runs the same on two
switch words with one upper byte. -/
def Obligations.EngineStepsIgnoreTheLowSwitches : Prop :=
  ∀ (s : State) (w : Addr) (i : Instr), w.extractLsb' 8 8 = s.sw.extractLsb' 8 8 → i = .step ∨ i = .tick →
    ∃ t, exec i s = .next t ∧ exec i { s with sw := w } = .next { t with sw := w }

/-! ### Invariants and whole sessions -/

/-- 70_reset_and_hazards.md R190: what construction leaves: the values the spec gives. -/
def Obligations.ConstructionState : Prop :=
  State.reset.cfg = Config.cfg ∧ State.reset.clockRateHz = Config.clockRateHz ∧
  State.reset.pwr = false ∧ State.reset.run = false ∧ State.reset.tp = false ∧ State.reset.la = 0x0000#16 ∧
  State.reset.es = Config.engine.init ∧ State.reset.aind = 0x0000#16 ∧ State.reset.dind = 0x00#8 ∧
  State.reset.wait = false ∧ State.reset.stat = false ∧ State.reset.out = 0x00#8 ∧
  State.reset.dbgCpu = [] ∧ State.reset.dbgMem = [] ∧ State.reset.trace = [] ∧
  protocol State.reset = some .off

/-- 10_state.md R40: the invariants hold at construction. -/
def Obligations.ConstructionMeetsTheInvariants : Prop := State.reset.Inv

/-- 10_state.md R40: every step keeps INV1 to INV7 and the canonical form of memory, from every state that meets
them. -/
def Obligations.StepKeepsTheInvariants : Prop :=
  ∀ s t : State, s.Inv → step s = .next t → t.Inv

/-- 10_state.md R28, 40_common_procedures.md R100: every latch holds the last value sent to its sink: so at
construction, and every step keeps it. -/
def Obligations.LatchesHoldTheLastEmission : Prop :=
  State.reset.LatchesHoldTrace ∧ ∀ s t : State, s.LatchesHoldTrace → step s = .next t → t.LatchesHoldTrace

/-- 10_state.md R29: the trace only grows. -/
def Obligations.TraceOnlyGrows : Prop :=
  ∀ s t : State, step s = .next t → ∃ es, t.trace = s.trace ++ es

/-- 42_scheduler.md R135: once RUN = 0, no engine cycle is executed, over any number of steps, until a command
that starts or resets the engine; and no new tick comes to exist. -/
def Obligations.NoEngineCycleAfterStop : Prop :=
  ∀ (k : Nat) (s t : State), s.run = false →
    (∀ x ∈ s.inputs, x.onlyIf (fun i => !i.touchesEngine) = true) →
    runSteps k s = .next t →
    t.es = s.es ∧ t.run = false ∧ (s.tp = false → t.tp = false)

/-- 60_exceptions.md R185: in OFF nothing but PWRON has an effect, over any number of steps: MEM, LA, ES, OUT,
CLOCK_RATE_HZ and every latch keep their values (bus requests come from the engine only, 00_scope.md R9). -/
def Obligations.OffIsInert : Prop :=
  ∀ (k : Nat) (s t : State), s.Inv → s.pwr = false →
    (∀ x ∈ s.inputs, x.wellFormed = true ∧ x.onlyIf (fun i => decide (i ≠ .pwron)) = true) →
    runSteps k s = .next t →
    t = { s with tp := t.tp, sw := t.sw, inputs := t.inputs, trace := t.trace } ∧
      (t.tp = true → s.tp = true)
end

