-- ==== Sys2Proof/Laws/Decode.lean ====
section
/-! SUPPORT. The fields of the words the encoder builds, one lemma a field. -/

namespace Sys2Proof

theorem clHeader_cmd (cmd : BitVec 4) (laddr : Addr) : (clHeader cmd laddr).extractLsb' 16 4 = cmd := by
  apply BitVec.eq_of_getLsbD_eq
  intro i hi
  simp only [clHeader, BitVec.getLsbD_extractLsb', BitVec.getLsbD_append]
  simp [hi]

theorem clHeader_laddr (cmd : BitVec 4) (laddr : Addr) :
    (clHeader cmd laddr).extractLsb' 0 16 = laddr := by
  apply BitVec.eq_of_getLsbD_eq
  intro i hi
  simp only [clHeader, BitVec.getLsbD_extractLsb', BitVec.getLsbD_append]
  simp [hi]

/-- A header is the one built from its two fields. -/
theorem clHeader_fields (header : BitVec 20) :
    clHeader (header.extractLsb' 16 4) (header.extractLsb' 0 16) = header := by
  apply BitVec.eq_of_getLsbD_eq
  intro i hi
  simp only [clHeader, BitVec.getLsbD_extractLsb', BitVec.getLsbD_append]
  by_cases h : i < 16
  · simp [h]
  · simp [h, show i - 16 < 4 by omega, show 16 + (i - 16) = i by omega]

theorem busType_busWord (t : BitVec 2) (addr : Addr) (data : Byte) : busType (busWord t addr data) = t := by
  apply BitVec.eq_of_getLsbD_eq
  intro i hi
  simp only [busType, busWord, BitVec.getLsbD_extractLsb', BitVec.getLsbD_append]
  rw [if_neg (by omega), if_neg (by omega), show 24 + i - 8 - 16 = i by omega]
  simp [hi]

theorem busAddr_busWord (t : BitVec 2) (addr : Addr) (data : Byte) :
    busAddr (busWord t addr data) = addr := by
  apply BitVec.eq_of_getLsbD_eq
  intro i hi
  simp only [busAddr, busWord, BitVec.getLsbD_extractLsb', BitVec.getLsbD_append]
  simp [hi]

theorem busData_busWord (t : BitVec 2) (addr : Addr) (data : Byte) :
    busData (busWord t addr data) = data := by
  apply BitVec.eq_of_getLsbD_eq
  intro i hi
  simp only [busData, busWord, BitVec.getLsbD_extractLsb', BitVec.getLsbD_append]
  simp [hi]

/-- The port of a bus word is the low byte of its address field. -/
theorem busPort_busWord (t : BitVec 2) (addr : Addr) (data : Byte) :
    busPort (busWord t addr data) = addr.setWidth 8 := by
  apply BitVec.eq_of_getLsbD_eq
  intro i hi
  simp only [busPort, busWord, BitVec.getLsbD_extractLsb', BitVec.getLsbD_append]
  simp [hi, show i < 16 by omega]

end Sys2Proof
end

