-- ==== Sys2Proof/Laws/Memory.lean ====
section
/-! SUPPORT. The laws of the memory list: a read after a write, and that every memory operation keeps the
canonical form and the bound N. -/

namespace Sys2Proof.Machine

/-! ### Reading -/

@[simp] theorem Memory.read_nil (i : Nat) : Memory.read [] i = unlistedByte := rfl

theorem Memory.read_cons (b : Nat) (w : Byte) (m : Memory) (i : Nat) :
    Memory.read ((b, w) :: m) i = if i = b then w else Memory.read m i := rfl

/-- Below its first cell a canonical memory lists nothing. -/
theorem Memory.read_of_lt {m : Memory} {lo i : Nat} (h : Memory.wfFrom lo m = true) (hi : i < lo) :
    Memory.read m i = unlistedByte := by
  induction m generalizing lo with
  | nil => rfl
  | cons c m ih =>
    obtain ⟨b, w⟩ := c
    simp only [Memory.wfFrom, Bool.and_eq_true, decide_eq_true_eq] at h
    rw [Memory.read_cons, if_neg (by omega)]
    exact ih h.2 (by omega)

theorem Memory.wfFrom_mono {m : Memory} {lo lo' : Nat} (h : Memory.wfFrom lo m = true) (hl : lo' ≤ lo) :
    Memory.wfFrom lo' m = true := by
  cases m with
  | nil => rfl
  | cons c m =>
    obtain ⟨b, w⟩ := c
    simp only [Memory.wfFrom, Bool.and_eq_true, decide_eq_true_eq] at h ⊢
    exact ⟨⟨by omega, h.1.2⟩, h.2⟩

/-! ### Consing a cell -/

/-- Consing a cell below a canonical memory sets that byte. -/
theorem Memory.read_consCell {m : Memory} {i : Nat} (v : Byte) (j : Nat)
    (h : Memory.wfFrom (i + 1) m = true) :
    Memory.read (Memory.consCell i v m) j = if j = i then v else Memory.read m j := by
  unfold Memory.consCell
  split
  · subst v
    split
    · rw [Memory.read_of_lt h (by omega)]
    · rfl
  · rw [Memory.read_cons]

theorem Memory.wfFrom_consCell {m : Memory} {lo i : Nat} (v : Byte) (hi : lo ≤ i)
    (h : Memory.wfFrom (i + 1) m = true) : Memory.wfFrom lo (Memory.consCell i v m) = true := by
  unfold Memory.consCell
  split
  · exact Memory.wfFrom_mono h (by omega)
  · simp [Memory.wfFrom, *]

theorem Memory.below_consCell {m : Memory} {n i : Nat} (v : Byte) (hi : i < n)
    (h : Memory.below n m = true) : Memory.below n (Memory.consCell i v m) = true := by
  unfold Memory.consCell
  split
  · exact h
  · simp [Memory.below] at h ⊢
    exact ⟨hi, h⟩

/-! ### Writing -/

theorem Memory.wfFrom_write {m : Memory} {lo i : Nat} (v : Byte) (hi : lo ≤ i)
    (h : Memory.wfFrom lo m = true) : Memory.wfFrom lo (Memory.write m i v) = true := by
  induction m generalizing lo with
  | nil => exact Memory.wfFrom_consCell v hi rfl
  | cons c m ih =>
    obtain ⟨b, w⟩ := c
    have h' := h
    simp only [Memory.wfFrom, Bool.and_eq_true, decide_eq_true_eq] at h
    unfold Memory.write
    split
    · refine Memory.wfFrom_consCell v hi ?_
      simp only [Memory.wfFrom, Bool.and_eq_true, decide_eq_true_eq]
      exact ⟨⟨by omega, h.1.2⟩, h.2⟩
    · split
      · subst b
        exact Memory.wfFrom_consCell v hi h.2
      · simp only [Memory.wfFrom, Bool.and_eq_true, decide_eq_true_eq]
        exact ⟨h.1, ih (by omega) h.2⟩

/-- A write keeps the canonical form. -/
theorem Memory.wf_write {m : Memory} (i : Nat) (v : Byte) (h : m.wf = true) :
    (Memory.write m i v).wf = true :=
  Memory.wfFrom_write v (Nat.zero_le i) h

theorem Memory.below_write {m : Memory} {n i : Nat} (v : Byte) (hi : i < n)
    (h : m.below n = true) : (Memory.write m i v).below n = true := by
  induction m with
  | nil => exact Memory.below_consCell v hi rfl
  | cons c m ih =>
    obtain ⟨b, w⟩ := c
    have hm : Memory.below n m = true := by
      simp [Memory.below] at h ⊢
      exact h.2
    have hb : b < n := by
      simp [Memory.below] at h
      exact h.1
    unfold Memory.write
    split
    · exact Memory.below_consCell v hi h
    · split
      · exact Memory.below_consCell v hi hm
      · have := ih hm
        simp [Memory.below] at this ⊢
        exact ⟨hb, this⟩

theorem Memory.read_write_from {m : Memory} {lo i : Nat} (v : Byte) (j : Nat)
    (h : Memory.wfFrom lo m = true) :
    Memory.read (Memory.write m i v) j = if j = i then v else Memory.read m j := by
  induction m generalizing lo with
  | nil => exact Memory.read_consCell v j rfl
  | cons c m ih =>
    obtain ⟨b, w⟩ := c
    have h' := h
    simp only [Memory.wfFrom, Bool.and_eq_true, decide_eq_true_eq] at h
    unfold Memory.write
    split
    · refine Memory.read_consCell v j ?_
      simp only [Memory.wfFrom, Bool.and_eq_true, decide_eq_true_eq]
      exact ⟨⟨by omega, h.1.2⟩, h.2⟩
    · split
      · subst b
        rw [Memory.read_consCell v j h.2, Memory.read_cons]
        split <;> rfl
      · rw [Memory.read_cons, Memory.read_cons, ih h.2]
        split <;> split <;> first | rfl | omega

/-- A read after a write: the byte written at its index, the old byte everywhere else. -/
theorem Memory.read_write {m : Memory} (i : Nat) (v : Byte) (j : Nat) (h : m.wf = true) :
    Memory.read (Memory.write m i v) j = if j = i then v else Memory.read m j :=
  Memory.read_write_from v j h

/-! ### Tabulating -/

theorem Memory.wfFrom_tabulate (f : Nat → Byte) (i count : Nat) :
    Memory.wfFrom i (Memory.tabulate f i count) = true := by
  induction count generalizing i with
  | zero => rfl
  | succ k ih => exact Memory.wfFrom_consCell _ (Nat.le_refl i) (ih (i + 1))

theorem Memory.read_tabulate (f : Nat → Byte) (i count j : Nat) :
    Memory.read (Memory.tabulate f i count) j =
      if i ≤ j ∧ j < i + count then f j else unlistedByte := by
  induction count generalizing i with
  | zero => simp [Memory.tabulate]
  | succ k ih =>
    rw [Memory.tabulate, Memory.read_consCell _ _ (Memory.wfFrom_tabulate f (i + 1) k), ih]
    split
    · subst j; simp
    · congr 1; simp; omega

theorem Memory.below_tabulate (f : Nat → Byte) {n i count : Nat} (h : i + count ≤ n) :
    (Memory.tabulate f i count).below n = true := by
  induction count generalizing i with
  | zero => rfl
  | succ k ih => exact Memory.below_consCell _ (by omega) (ih (by omega))

/-! ### The loader's writes -/

theorem Memory.wf_storeSlots (n i : Nat) (slots : List (Option Byte)) {m : Memory} (h : m.wf = true) :
    (Memory.storeSlots n i slots m).wf = true := by
  induction slots generalizing i m with
  | nil => exact h
  | cons c rest ih =>
    cases c with
    | none => exact ih (i + 1) h
    | some v =>
      refine ih (i + 1) ?_
      split
      · exact Memory.wf_write i v h
      · exact h

theorem Memory.below_storeSlots (n i : Nat) (slots : List (Option Byte)) {m : Memory}
    (h : m.below n = true) : (Memory.storeSlots n i slots m).below n = true := by
  induction slots generalizing i m with
  | nil => exact h
  | cons c rest ih =>
    cases c with
    | none => exact ih (i + 1) h
    | some v =>
      refine ih (i + 1) ?_
      split
      · exact Memory.below_write v ‹_› h
      · exact h

/-- What the loader's writes leave at index `j`: its slot's byte, if it has one below `n`; else the old byte. -/
theorem Memory.read_storeSlots (n i : Nat) (slots : List (Option Byte)) {m : Memory} (h : m.wf = true)
    (j : Nat) :
    Memory.read (Memory.storeSlots n i slots m) j =
      if i ≤ j ∧ j < n then ((slots[j - i]?).join).getD (Memory.read m j) else Memory.read m j := by
  induction slots generalizing i m with
  | nil => simp [Memory.storeSlots]
  | cons c rest ih =>
    have hs : i + 1 ≤ j → (c :: rest)[j - i]? = rest[j - (i + 1)]? := by
      intro hij
      rw [show j - i = (j - (i + 1)) + 1 by omega, List.getElem?_cons_succ]
    cases c with
    | none =>
      rw [Memory.storeSlots, ih (i + 1) h]
      by_cases hij : i + 1 ≤ j
      · simp only [hs hij, hij, true_and, show i ≤ j by omega]
      · by_cases he : i = j
        · subst he; simp
        · rw [if_neg (by omega), if_neg (by omega)]
    | some v =>
      rw [Memory.storeSlots]
      by_cases hin : i < n
      · rw [if_pos hin, ih (i + 1) (Memory.wf_write i v h), Memory.read_write i v j h]
        by_cases hij : i + 1 ≤ j
        · rw [if_neg (show ¬ j = i by omega)]
          simp only [hs hij, hij, true_and, show i ≤ j by omega]
        · by_cases he : i = j
          · subst he; simp [hin]
          · rw [if_neg (by omega), if_neg (by omega), if_neg (by omega)]
      · rw [if_neg hin, ih (i + 1) h, if_neg (by omega), if_neg (by omega)]

end Sys2Proof.Machine
end

