-- ==== Sys2Proof/Laws/State.lean ====
section
/-! SUPPORT. What each update of the state does to each field: true by rfl, so that no later proof unfolds a
record update. -/

namespace Sys2Proof.Machine

section Emit

variable (s : State) (e : Emission)

@[simp] theorem emit_cfg : (emit e s).cfg = s.cfg := by cases e <;> rfl
@[simp] theorem emit_clockRateHz : (emit e s).clockRateHz = s.clockRateHz := by cases e <;> rfl
@[simp] theorem emit_mem : (emit e s).mem = s.mem := by cases e <;> rfl
@[simp] theorem emit_pwr : (emit e s).pwr = s.pwr := by cases e <;> rfl
@[simp] theorem emit_run : (emit e s).run = s.run := by cases e <;> rfl
@[simp] theorem emit_tp : (emit e s).tp = s.tp := by cases e <;> rfl
@[simp] theorem emit_la : (emit e s).la = s.la := by cases e <;> rfl
@[simp] theorem emit_es : (emit e s).es = s.es := by cases e <;> rfl
@[simp] theorem emit_sw : (emit e s).sw = s.sw := by cases e <;> rfl
@[simp] theorem emit_inputs : (emit e s).inputs = s.inputs := by cases e <;> rfl
@[simp] theorem emit_reply : (emit e s).reply = s.reply := by cases e <;> rfl
@[simp] theorem emit_drawn : (emit e s).drawn = s.drawn := by cases e <;> rfl
@[simp] theorem emit_trace : (emit e s).trace = s.trace ++ [e] := by cases e <;> rfl

end Emit

section Latches

variable (s : State)

theorem emit_aind (v : Addr) :
    emit (.aind v) s = { s with aind := v, trace := s.trace ++ [.aind v] } := rfl
theorem emit_dind (v : Byte) :
    emit (.dind v) s = { s with dind := v, trace := s.trace ++ [.dind v] } := rfl
theorem emit_wait (v : Bool) :
    emit (.wait v) s = { s with wait := v, trace := s.trace ++ [.wait v] } := rfl
theorem emit_stat (v : Bool) :
    emit (.stat v) s = { s with stat := v, trace := s.trace ++ [.stat v] } := rfl
theorem emit_out (v : Byte) :
    emit (.out v) s = { s with out := v, trace := s.trace ++ [.out v] } := rfl
theorem emit_dbgCpu (v : Text) :
    emit (.dbgCpu v) s = { s with dbgCpu := v, trace := s.trace ++ [.dbgCpu v] } := rfl
theorem emit_dbgMem (v : Text) :
    emit (.dbgMem v) s = { s with dbgMem := v, trace := s.trace ++ [.dbgMem v] } := rfl

end Latches

section MemWrite

variable (a : Nat) (v : Byte) (s : State)

@[simp] theorem memWrite_mem : (memWrite a v s).mem = Memory.write s.mem (memIndex s a) v := rfl
@[simp] theorem memWrite_cfg : (memWrite a v s).cfg = s.cfg := rfl
@[simp] theorem memWrite_clockRateHz : (memWrite a v s).clockRateHz = s.clockRateHz := rfl
@[simp] theorem memWrite_pwr : (memWrite a v s).pwr = s.pwr := rfl
@[simp] theorem memWrite_run : (memWrite a v s).run = s.run := rfl
@[simp] theorem memWrite_tp : (memWrite a v s).tp = s.tp := rfl
@[simp] theorem memWrite_la : (memWrite a v s).la = s.la := rfl
@[simp] theorem memWrite_es : (memWrite a v s).es = s.es := rfl
@[simp] theorem memWrite_aind : (memWrite a v s).aind = s.aind := rfl
@[simp] theorem memWrite_dind : (memWrite a v s).dind = s.dind := rfl
@[simp] theorem memWrite_wait : (memWrite a v s).wait = s.wait := rfl
@[simp] theorem memWrite_stat : (memWrite a v s).stat = s.stat := rfl
@[simp] theorem memWrite_out : (memWrite a v s).out = s.out := rfl
@[simp] theorem memWrite_dbgCpu : (memWrite a v s).dbgCpu = s.dbgCpu := rfl
@[simp] theorem memWrite_dbgMem : (memWrite a v s).dbgMem = s.dbgMem := rfl
@[simp] theorem memWrite_trace : (memWrite a v s).trace = s.trace := rfl
@[simp] theorem memWrite_sw : (memWrite a v s).sw = s.sw := rfl
@[simp] theorem memWrite_inputs : (memWrite a v s).inputs = s.inputs := rfl
@[simp] theorem memWrite_reply : (memWrite a v s).reply = s.reply := rfl
@[simp] theorem memWrite_drawn : (memWrite a v s).drawn = s.drawn := rfl

end MemWrite

section LoadSlots

variable (a : Addr) (slots : List (Option Byte)) (s : State)

@[simp] theorem loadSlots_mem :
    (loadSlots a slots s).mem = Memory.storeSlots s.cfg.size a.toNat slots s.mem := rfl
theorem loadSlots_frame : loadSlots a slots s = { s with mem := (loadSlots a slots s).mem } := rfl

end LoadSlots

section Answers

variable (s : State)

@[simp] theorem busMemr_reply (addr : Addr) : (busMemr addr s).reply = some (memRead s addr.toNat) := rfl
@[simp] theorem busIor_reply (port : Byte) : (busIor port s).reply = some (portRead s port) := rfl
theorem busMemr_frame (addr : Addr) : busMemr addr s = { s with reply := (busMemr addr s).reply } := rfl
theorem busIor_frame (port : Byte) : busIor port s = { s with reply := (busIor port s).reply } := rfl

end Answers

end Sys2Proof.Machine
end

