-- ==== Sys2Proof/Laws/Ops.lean ====
section
/-! SUPPORT. One lemma a shared operation: everything it can do, so that no later proof unfolds it. -/

namespace Sys2Proof.Machine

/-! ### Addresses -/

theorem Cfg.size_pos (c : Cfg) : 0 < c.size := Nat.succ_pos _

theorem Cfg.size_le (c : Cfg) : c.size ≤ 65536 := c.memTop.isLt

theorem memIndex_lt (s : State) (a : Nat) : memIndex s a < s.cfg.size :=
  Nat.mod_lt _ (Cfg.size_pos s.cfg)

theorem memIndex_of_lt (s : State) {a : Nat} (h : a < s.cfg.size) : memIndex s a = a :=
  Nat.mod_eq_of_lt h

/-- A read after a write, by address: every alias of the written address reads the byte written. -/
theorem memRead_memWrite (s : State) (a : Nat) (v : Byte) (b : Nat) (h : s.mem.wf = true) :
    memRead (memWrite a v s) b = if b % s.cfg.size = a % s.cfg.size then v else memRead s b := by
  simp only [memRead, memWrite, memIndex]
  exact Memory.read_write _ _ _ h

/-! ### Gates and refreshes -/

theorem whenPowered_on {f : State → State} {s : State} (h : s.pwr = true) : whenPowered f s = f s := by
  simp [whenPowered, h]

theorem whenPowered_off {f : State → State} {s : State} (h : s.pwr = false) : whenPowered f s = s := by
  simp [whenPowered, h]

theorem refreshPanel_eq (a : Addr) (s : State) :
    refreshPanel a s = { s with
      aind := a
      dind := memRead s a.toNat
      trace := s.trace ++ [.aind a, .dind (memRead s a.toNat)] } := by
  simp [refreshPanel, emit]

theorem refreshDebug_eq (E : Engine) (s : State) :
    refreshDebug E s = { s with
      dbgCpu := cpuText E s
      dbgMem := memText s
      trace := s.trace ++ [.dbgCpu (cpuText E s), .dbgMem (memText s)] } := by
  simp [refreshDebug, emit]

/-- A panel refresh followed by a debug refresh: the tail of EXAM, EXAMNXT, DEP, DEPNXT, STEP and TICK. -/
theorem refreshBoth_eq (E : Engine) (a : Addr) (s : State) :
    refreshDebug E (refreshPanel a s) = { s with
      aind := a
      dind := memRead s a.toNat
      dbgCpu := cpuText E s
      dbgMem := memText s
      trace := s.trace ++
        [.aind a, .dind (memRead s a.toNat), .dbgCpu (cpuText E s), .dbgMem (memText s)] } := by
  rw [refreshDebug_eq, refreshPanel_eq]
  simp [cpuText, memText]

theorem clearPanel_eq (s : State) :
    clearPanel s = { s with
      aind := 0x0000#16
      dind := 0x00#8
      stat := false
      wait := false
      dbgCpu := []
      dbgMem := []
      trace := s.trace ++
        [.aind 0x0000#16, .dind 0x00#8, .stat false, .wait false, .dbgCpu [], .dbgMem []] } := by
  simp [clearPanel, emit]

theorem flash_eq (s : State) :
    flash s = { s with
      aind := 0x0000#16
      dind := 0x00#8
      trace := s.trace ++ [.aind 0xFFFF#16, .dind 0xFF#8, .aind 0x0000#16, .dind 0x00#8] } := by
  simp [flash, emit]

/-- The fill writes MEM and, in RANDOM mode, takes N free bytes; nothing else. -/
theorem fill_frame (s : State) : fill s = { s with mem := (fill s).mem, drawn := (fill s).drawn } := by
  unfold fill; split <;> rfl

@[simp] theorem fill_cfg (s : State) : (fill s).cfg = s.cfg := by rw [fill_frame]
@[simp] theorem fill_clockRateHz (s : State) : (fill s).clockRateHz = s.clockRateHz := by rw [fill_frame]
@[simp] theorem fill_pwr (s : State) : (fill s).pwr = s.pwr := by rw [fill_frame]
@[simp] theorem fill_run (s : State) : (fill s).run = s.run := by rw [fill_frame]
@[simp] theorem fill_tp (s : State) : (fill s).tp = s.tp := by rw [fill_frame]
@[simp] theorem fill_la (s : State) : (fill s).la = s.la := by rw [fill_frame]
@[simp] theorem fill_es (s : State) : (fill s).es = s.es := by rw [fill_frame]
@[simp] theorem fill_aind (s : State) : (fill s).aind = s.aind := by rw [fill_frame]
@[simp] theorem fill_dind (s : State) : (fill s).dind = s.dind := by rw [fill_frame]
@[simp] theorem fill_wait (s : State) : (fill s).wait = s.wait := by rw [fill_frame]
@[simp] theorem fill_stat (s : State) : (fill s).stat = s.stat := by rw [fill_frame]
@[simp] theorem fill_out (s : State) : (fill s).out = s.out := by rw [fill_frame]
@[simp] theorem fill_dbgCpu (s : State) : (fill s).dbgCpu = s.dbgCpu := by rw [fill_frame]
@[simp] theorem fill_dbgMem (s : State) : (fill s).dbgMem = s.dbgMem := by rw [fill_frame]
@[simp] theorem fill_trace (s : State) : (fill s).trace = s.trace := by rw [fill_frame]
@[simp] theorem fill_sw (s : State) : (fill s).sw = s.sw := by rw [fill_frame]
@[simp] theorem fill_inputs (s : State) : (fill s).inputs = s.inputs := by rw [fill_frame]
@[simp] theorem fill_reply (s : State) : (fill s).reply = s.reply := by rw [fill_frame]

/-- Every fill leaves a canonical memory of N elements. -/
theorem fill_mem (s : State) : (fill s).mem.wf = true ∧ (fill s).mem.below s.cfg.size = true := by
  unfold fill
  split
  · exact ⟨rfl, rfl⟩
  · exact ⟨Memory.wfFrom_tabulate _ _ _, Memory.below_tabulate _ (by omega)⟩

/-! ### The engine step -/

/-- What one bus write at a port does, whichever port it is. -/
theorem busIow_cases (port val : Byte) (s : State) :
    (port = wiredPort ∧ busIow port val s = { s with out := val, trace := s.trace ++ [.out val] }) ∨
      (port ≠ wiredPort ∧ busIow port val s = s) := by
  unfold busIow
  split
  · exact .inl ⟨‹_›, rfl⟩
  · exact .inr ⟨‹_›, rfl⟩

/-- An engine run changes MEM, ES, OUT, the reply and the trace; nothing else. -/
theorem runEngine_frame (r : Run) (s : State) :
    runEngine r s = { s with
      mem := (runEngine r s).mem
      es := (runEngine r s).es
      out := (runEngine r s).out
      reply := (runEngine r s).reply
      trace := (runEngine r s).trace } := by
  induction r generalizing s with
  | done es => rfl
  | memr a k ih => exact ih _ (busMemr a s)
  | memw a v k ih => exact ih (busMemw a v s)
  | ior p k ih => exact ih _ (busIor p s)
  | iow p v k ih =>
    have h := ih (busIow p v s)
    rcases busIow_cases p v s with ⟨-, hb⟩ | ⟨-, hb⟩ <;> rw [hb] at h <;>
      simp only [runEngine, hb] <;> exact h

@[simp] theorem runEngine_cfg (r : Run) (s : State) : (runEngine r s).cfg = s.cfg := by rw [runEngine_frame]
@[simp] theorem runEngine_clockRateHz (r : Run) (s : State) :
    (runEngine r s).clockRateHz = s.clockRateHz := by rw [runEngine_frame]
@[simp] theorem runEngine_pwr (r : Run) (s : State) : (runEngine r s).pwr = s.pwr := by rw [runEngine_frame]
@[simp] theorem runEngine_run (r : Run) (s : State) : (runEngine r s).run = s.run := by rw [runEngine_frame]
@[simp] theorem runEngine_tp (r : Run) (s : State) : (runEngine r s).tp = s.tp := by rw [runEngine_frame]
@[simp] theorem runEngine_la (r : Run) (s : State) : (runEngine r s).la = s.la := by rw [runEngine_frame]
@[simp] theorem runEngine_aind (r : Run) (s : State) : (runEngine r s).aind = s.aind := by rw [runEngine_frame]
@[simp] theorem runEngine_dind (r : Run) (s : State) : (runEngine r s).dind = s.dind := by rw [runEngine_frame]
@[simp] theorem runEngine_wait (r : Run) (s : State) : (runEngine r s).wait = s.wait := by rw [runEngine_frame]
@[simp] theorem runEngine_stat (r : Run) (s : State) : (runEngine r s).stat = s.stat := by rw [runEngine_frame]
@[simp] theorem runEngine_dbgCpu (r : Run) (s : State) : (runEngine r s).dbgCpu = s.dbgCpu := by
  rw [runEngine_frame]
@[simp] theorem runEngine_dbgMem (r : Run) (s : State) : (runEngine r s).dbgMem = s.dbgMem := by
  rw [runEngine_frame]
@[simp] theorem runEngine_sw (r : Run) (s : State) : (runEngine r s).sw = s.sw := by rw [runEngine_frame]
@[simp] theorem runEngine_inputs (r : Run) (s : State) : (runEngine r s).inputs = s.inputs := by
  rw [runEngine_frame]
@[simp] theorem runEngine_drawn (r : Run) (s : State) : (runEngine r s).drawn = s.drawn := by
  rw [runEngine_frame]

/-- An engine run keeps the canonical form of MEM. -/
theorem runEngine_wf (r : Run) (s : State) (h : s.mem.wf = true) : (runEngine r s).mem.wf = true := by
  induction r generalizing s with
  | done es => exact h
  | memr a k ih => exact ih _ (busMemr a s) h
  | memw a v k ih => exact ih _ (Memory.wf_write _ _ h)
  | ior p k ih => exact ih _ (busIor p s) h
  | iow p v k ih =>
    refine ih _ ?_
    rcases busIow_cases p v s with ⟨-, hb⟩ | ⟨-, hb⟩ <;> rw [hb] <;> exact h

/-- An engine run keeps MEM within its N elements. -/
theorem runEngine_below (r : Run) (s : State) (h : s.mem.below s.cfg.size = true) :
    (runEngine r s).mem.below s.cfg.size = true := by
  induction r generalizing s with
  | done es => exact h
  | memr a k ih => exact ih _ (busMemr a s) h
  | memw a v k ih => exact ih (busMemw a v s) (Memory.below_write v (memIndex_lt s _) h)
  | ior p k ih => exact ih _ (busIor p s) h
  | iow p v k ih =>
    rcases busIow_cases p v s with ⟨-, hb⟩ | ⟨-, hb⟩
    · simp only [runEngine, hb]
      exact ih { s with out := v, trace := s.trace ++ [.out v] } h
    · simp only [runEngine, hb]
      exact ih s h

/-- The emissions of an engine run are those of its writes to port 0xFF, and OUT holds the last of them. -/
theorem runEngine_out (r : Run) (s : State) :
    ∃ vs : List Byte, (runEngine r s).trace = s.trace ++ vs.map .out ∧
      (runEngine r s).out = vs.getLast?.getD s.out := by
  induction r generalizing s with
  | done es => exact ⟨[], by simp [runEngine], rfl⟩
  | memr a k ih => exact ih _ (busMemr a s)
  | memw a v k ih => exact ih (busMemw a v s)
  | ior p k ih => exact ih _ (busIor p s)
  | iow p v k ih =>
    rcases busIow_cases p v s with ⟨-, hb⟩ | ⟨-, hb⟩
    · obtain ⟨vs, ht, ho⟩ := ih { s with out := v, trace := s.trace ++ [.out v] }
      refine ⟨v :: vs, ?_, ?_⟩
      · simp only [runEngine, hb, ht]; simp
      · simp only [runEngine, hb, ho]
        cases vs with
        | nil => rfl
        | cons w ws => simp [List.getLast?_cons]
    · simp only [runEngine, hb]
      exact ih s

/-- One slice with its refreshes: what STEP, and the working part of a tick, do after their gates. -/
theorem engineSlice_eq (E : Engine) (n : Nat) (s : State) :
    refreshDebug E (refreshAfterStep E (engineStep E n s)) =
      let u := runEngine (E.step n s.es) s
      { u with
        aind := (E.status u.es).pc
        dind := memRead u (E.status u.es).pc.toNat
        dbgCpu := cpuText E u
        dbgMem := memText u
        trace := u.trace ++
          [.aind (E.status u.es).pc, .dind (memRead u (E.status u.es).pc.toNat),
           .dbgCpu (cpuText E u), .dbgMem (memText u)] } := by
  rw [refreshAfterStep, refreshBoth_eq]
  rfl

/-- The two things a STEP can be: ignored, or one slice of one cycle. -/
theorem panelStep_cases (E : Engine) (s : State) :
    (¬ (s.pwr = true ∧ s.run = false) ∧ panelStep E s = s) ∨
      (s.pwr = true ∧ s.run = false ∧
        panelStep E s = refreshDebug E (refreshAfterStep E (engineStep E 1 s))) := by
  unfold panelStep whenPowered
  cases hp : s.pwr <;> cases hr : s.run <;> simp [hr]

/-- The three things a tick can be: none outstanding, the empty one after a stop, a working one. -/
theorem schedulerTick_cases (E : Engine) (s : State) :
    (s.tp = false ∧ schedulerTick E s = s) ∨
      (s.tp = true ∧ s.run = false ∧ schedulerTick E s = { s with tp := false }) ∨
      (s.tp = true ∧ s.run = true ∧ schedulerTick E s = tickWork E { s with tp := false }) := by
  unfold schedulerTick
  cases htp : s.tp <;> cases hr : s.run <;> simp

end Sys2Proof.Machine
end

