-- ==== Sys2Proof/Laws/PerInstr.lean ====
section
/-! SUPPORT. Statements about every operation as syntax, one lemma a constructor. -/

namespace Sys2Proof.Laws.EncodesInItsFormat

/-- The request that encodes the operation is well-formed, and is a bus word exactly for the four operations
only the engine asks for (spec/00_scope.md R9; spec/30_encoding.md R80, R88). -/
def Statement (i : Instr) : Prop :=
  (encode i).wellFormed = true ∧
    (encode i).fromEngine = match i with
      | .memr _ | .memw _ _ | .ior _ | .iow _ _ => true
      | .pwron | .pwroff | .reset | .run | .stop | .step | .exam | .examnxt | .dep | .depnxt | .load _ _
      | .loadhex _ _ | .tick | .reserved0 | .reservedD | .reservedE | .reservedF => false

theorem pwron : Statement .pwron := ⟨rfl, rfl⟩
theorem pwroff : Statement .pwroff := ⟨rfl, rfl⟩
theorem reset : Statement .reset := ⟨rfl, rfl⟩
theorem run : Statement .run := ⟨rfl, rfl⟩
theorem stop : Statement .stop := ⟨rfl, rfl⟩
theorem step : Statement .step := ⟨rfl, rfl⟩
theorem exam : Statement .exam := ⟨rfl, rfl⟩
theorem examnxt : Statement .examnxt := ⟨rfl, rfl⟩
theorem dep : Statement .dep := ⟨rfl, rfl⟩
theorem depnxt : Statement .depnxt := ⟨rfl, rfl⟩
theorem load (laddr : Addr) (bytes : List Byte) : Statement (.load laddr bytes) :=
  ⟨by simp [encode, Request.wellFormed, clHeader_cmd], rfl⟩
theorem loadhex (laddr : Addr) (text : Text) : Statement (.loadhex laddr text) :=
  ⟨by simp [encode, Request.wellFormed, clHeader_cmd], rfl⟩
theorem memr (addr : Addr) : Statement (.memr addr) := ⟨rfl, rfl⟩
theorem memw (addr : Addr) (val : Byte) : Statement (.memw addr val) := ⟨rfl, rfl⟩
theorem ior (port : Byte) : Statement (.ior port) := ⟨rfl, rfl⟩
theorem iow (port val : Byte) : Statement (.iow port val) := ⟨rfl, rfl⟩
theorem tick : Statement .tick := ⟨rfl, rfl⟩
theorem reserved0 : Statement .reserved0 := ⟨rfl, rfl⟩
theorem reservedD : Statement .reservedD := ⟨rfl, rfl⟩
theorem reservedE : Statement .reservedE := ⟨rfl, rfl⟩
theorem reservedF : Statement .reservedF := ⟨rfl, rfl⟩

end Sys2Proof.Laws.EncodesInItsFormat
end

