-- ==== Sys2Proof/Laws/Steps.lean ====
section
/-! SUPPORT. Sequences of steps: how a run begins, how an invariant of the step carries over to a run, and that
`runSteps` is the host's own run of the machine. -/

namespace Sys2Proof.Machine

/-- A run whose first step gives `s'` goes on from `s'`. -/
theorem runSteps_succ {k : Nat} {s s' : State} (h : step s = .next s') :
    runSteps (k + 1) s = runSteps k s' := by
  simp [runSteps, h]

/-- A relation to the first state that each step keeps holds of every state a run reaches. -/
theorem runSteps_induction {P : State → Prop} (hstep : ∀ s t, P s → step s = .next t → P t) {k : Nat}
    {s t : State} (hs : P s) (h : runSteps k s = .next t) : P t := by
  induction k generalizing s with
  | zero => cases h; exact hs
  | succ k ih =>
    rw [runSteps] at h
    cases hst : step s with
    | next s' => rw [hst] at h; exact ih (hstep s s' hs hst) h
    | fault e => rw [hst] at h; cases h
    | refused e => rw [hst] at h; cases h

/-- How the host's run of any machine begins. -/
theorem host_run_next (M : Host.Core) {k : Nat} {s s' : M.State} (h : M.step s = .next s') :
    M.run (k + 1) s = M.run k s' := by
  simp only [Host.Core.run, h]

theorem host_run_refused (M : Host.Core) {k : Nat} {s : M.State} {e : M.Refusal}
    (h : M.step s = .refused e) : M.run (k + 1) s = .refused e := by
  simp only [Host.Core.run, h]

/-- `runSteps` is the host's run of `Sys2Proof.core`. -/
theorem runSteps_eq_host (k : Nat) (s : State) : Host.Core.run Sys2Proof.core k s = runSteps k s := by
  induction k generalizing s with
  | zero => rfl
  | succ k ih =>
    rw [runSteps]
    cases h : step s with
    | next s' => exact (host_run_next Sys2Proof.core h).trans (ih s')
    | fault e => cases e
    | refused e => exact host_run_refused Sys2Proof.core h

/-- What a step does: the pending tick or nothing with no event waiting, a switch change, or an operation. -/
theorem step_cases {s t : State} (h : step s = .next t) :
    (s.inputs = [] ∧ s.tp = true ∧ exec .tick s = .next t) ∨
      (s.inputs = [] ∧ s.tp = false ∧ t = s) ∨
      (∃ w rest, s.inputs = .switches w :: rest ∧ t = { s with inputs := rest, sw := w }) ∨
      (∃ r rest i, s.inputs = .request r :: rest ∧ decode r = .ok i ∧
        exec i { s with inputs := rest } = .next t) := by
  unfold step at h
  split at h
  · rename_i hin
    cases htp : s.tp with
    | true => rw [htp] at h; exact .inl ⟨hin, rfl, h⟩
    | false => rw [htp] at h; cases h; exact .inr (.inl ⟨hin, rfl, rfl⟩)
  · cases h
    exact .inr (.inr (.inl ⟨_, _, ‹_›, rfl⟩))
  · rename_i r rest hin
    cases hd : decode r with
    | ok i => rw [hd] at h; exact .inr (.inr (.inr ⟨r, rest, i, hin, hd, h⟩))
    | error e => rw [hd] at h; cases h

end Sys2Proof.Machine
end

