-- ==== Sys2Proof/Laws/Text.lean ====
section
/-! SUPPORT. The small lemmas of the text formats: digits and their case, the order of the flag names, and what one
text of each format is. -/

namespace Sys2Proof.Machine

/-! ### Digits -/

@[simp] theorem hex2At_const (upper : Bool) (k : Nat) (v : Byte) : hex2At (fun _ => upper) k v = hex2 upper v := rfl

@[simp] theorem hex4At_const (upper : Bool) (k : Nat) (v : Addr) : hex4At (fun _ => upper) k v = hex4 upper v := rfl

theorem hex2_eq (upper : Bool) (v : Byte) :
    hex2 upper v = [hexDigit upper (v.extractLsb' 4 4), hexDigit upper (v.extractLsb' 0 4)] := rfl

theorem hex4_eq (upper : Bool) (v : Addr) :
    hex4 upper v = hex2 upper (v.extractLsb' 8 8) ++ hex2 upper (v.extractLsb' 0 8) := rfl

theorem hexDigit_toLower (upper : Bool) (d : BitVec 4) : (hexDigit upper d).toLower = hexDigit false d := by
  revert upper d; decide

/-- A numeral in any case is the numeral. -/
theorem hex2At_isNumeral (upper : Nat → Bool) (k : Nat) (v : Byte) : IsNumeral (hex2 false v) (hex2At upper k v) := by
  simp [IsNumeral, hex2, hex2At, hexDigit_toLower]

theorem hex4At_isNumeral (upper : Nat → Bool) (k : Nat) (v : Addr) : IsNumeral (hex4 false v) (hex4At upper k v) := by
  simp [IsNumeral, hex4, hex4At, hex2At, hexDigit_toLower]

/-- The 26 upper-case characters. -/
theorem exists_of_isUpper {c : Char} (h : c.isUpper = true) : ∃ n : Fin 26, c = Char.ofNat (65 + n) := by
  simp only [Char.isUpper, decide_eq_true_eq, ge_iff_le, UInt32.le_iff_toNat_le] at h
  have hA : 65 ≤ c.toNat := h.1
  have hZ : c.toNat ≤ 90 := h.2
  refine ⟨⟨c.toNat - 65, by omega⟩, ?_⟩
  rw [show 65 + (c.toNat - 65) = c.toNat by omega, Char.ofNat_toNat]

/-- The only characters whose lower-case form is a digit are the digit's two forms. -/
theorem eq_hexDigit_of_toLower {c : Char} {d : BitVec 4} (h : c.toLower = hexDigit false d) :
    c = hexDigit c.isUpper d := by
  cases hu : c.isUpper with
  | false => rw [← h, Char.toLower_eq_of_not_isUpper (by simp [hu])]
  | true =>
    obtain ⟨n, hn, rfl⟩ := exists_of_isUpper hu
    revert n d
    decide

/-- A text whose lower-case form is the two-digit numeral is that numeral in the case of its own digits. -/
theorem hex2At_of_isNumeral {v : Byte} {t : Text} (h : IsNumeral (hex2 false v) t) {upper : Nat → Bool} {k : Nat}
    (hu : ∀ i, i < 2 → upper (k + i) = (t.getD i ' ').isUpper) : hex2At upper k v = t := by
  rw [IsNumeral, hex2_eq] at h
  have hl := congrArg List.length h
  rw [List.length_map] at hl
  match t, hl with
  | a :: b :: [], _ =>
    have h0 : upper k = a.isUpper := hu 0 (by omega)
    have h1 : upper (k + 1) = b.isUpper := hu 1 (by omega)
    simp only [List.map_cons, List.map_nil, List.cons.injEq, and_true] at h
    rw [hex2At, h0, h1, ← eq_hexDigit_of_toLower h.1, ← eq_hexDigit_of_toLower h.2]

theorem length_of_isNumeral_hex2 {v : Byte} {t : Text} (h : IsNumeral (hex2 false v) t) : t.length = 2 := by
  have hl := congrArg List.length h
  rwa [List.length_map] at hl

theorem length_of_isNumeral_hex4 {v : Addr} {t : Text} (h : IsNumeral (hex4 false v) t) : t.length = 4 := by
  have hl := congrArg List.length h
  rwa [List.length_map] at hl

/-- A text whose lower-case form is the four-digit numeral is that numeral in the case of its own digits. -/
theorem hex4At_of_isNumeral {v : Addr} {t : Text} (h : IsNumeral (hex4 false v) t) {upper : Nat → Bool} {k : Nat}
    (hu : ∀ i, i < 4 → upper (k + i) = (t.getD i ' ').isUpper) : hex4At upper k v = t := by
  have hl := length_of_isNumeral_hex4 h
  match t, hl with
  | a :: b :: c :: d :: [], _ =>
    rw [IsNumeral, hex4_eq, hex2_eq, hex2_eq] at h
    simp only [List.map_cons, List.map_nil, List.cons_append, List.nil_append, List.cons.injEq, and_true] at h
    have hi : IsNumeral (hex2 false (v.extractLsb' 8 8)) [a, b] := by simp [IsNumeral, hex2_eq, h.1, h.2.1]
    have lo : IsNumeral (hex2 false (v.extractLsb' 0 8)) [c, d] := by simp [IsNumeral, hex2_eq, h.2.2.1, h.2.2.2]
    rw [hex4At, hex2At_of_isNumeral hi (k := k), hex2At_of_isNumeral lo (k := k + 2)]
    · rfl
    · intro i h2
      rw [show k + 2 + i = k + (2 + i) by omega, hu (2 + i) (by omega)]
      match i, h2 with
      | 0, _ => rfl
      | 1, _ => rfl
    · intro i h2
      rw [hu i (by omega)]
      match i, h2 with
      | 0, _ => rfl
      | 1, _ => rfl

/-! ### The register line -/

theorem regNumerals_areNumerals (upper : Nat → Bool) (r : Regs) : AreNumerals r (regNumerals upper r) :=
  ⟨hex4At_isNumeral upper 0 r.pc, hex4At_isNumeral upper 4 r.sp, hex2At_isNumeral upper 8 r.a,
    hex2At_isNumeral upper 10 r.b, hex2At_isNumeral upper 12 r.c, hex2At_isNumeral upper 14 r.d,
    hex2At_isNumeral upper 16 r.e, hex2At_isNumeral upper 18 r.f, hex2At_isNumeral upper 20 r.h,
    hex2At_isNumeral upper 22 r.l⟩

/-- Numerals in any mixture of cases are the numerals of some choice of cases. -/
theorem exists_regNumerals {r : Regs} {n : RegTexts} (h : AreNumerals r n) : ∃ upper, regNumerals upper r = n := by
  obtain ⟨pc, sp, a, b, c, d, e, f, h', l⟩ := n
  obtain ⟨npc, nsp, na, nb, nc, nd, ne, nf, nh, nl⟩ := h
  dsimp only at npc nsp na nb nc nd ne nf nh nl
  have lpc := length_of_isNumeral_hex4 npc
  have lsp := length_of_isNumeral_hex4 nsp
  have la := length_of_isNumeral_hex2 na
  have lb := length_of_isNumeral_hex2 nb
  have lc := length_of_isNumeral_hex2 nc
  have ld := length_of_isNumeral_hex2 nd
  have le := length_of_isNumeral_hex2 ne
  have lf := length_of_isNumeral_hex2 nf
  have lh := length_of_isNumeral_hex2 nh
  have ll := length_of_isNumeral_hex2 nl
  generalize hD : pc ++ sp ++ a ++ b ++ c ++ d ++ e ++ f ++ h' ++ l = digits
  have key : ∀ {pre x post : Text} {k m i : Nat}, digits = pre ++ (x ++ post) → pre.length = k → x.length = m →
      i < m → (digits.getD (k + i) ' ').isUpper = (x.getD i ' ').isUpper := by
    intro pre x post k m i hd hk hm hi
    rw [hd, List.getD_append_right _ _ _ _ (by omega), show k + i - pre.length = i by omega,
      List.getD_append _ _ _ _ (by omega)]
  refine ⟨fun k => (digits.getD k ' ').isUpper, ?_⟩
  unfold regNumerals
  congr 1
  · exact hex4At_of_isNumeral npc fun i => key (pre := []) (post := sp ++ a ++ b ++ c ++ d ++ e ++ f ++ h' ++ l)
      (by simp [← hD]) rfl lpc
  · exact hex4At_of_isNumeral nsp fun i => key (pre := pc) (post := a ++ b ++ c ++ d ++ e ++ f ++ h' ++ l)
      (by simp [← hD]) lpc lsp
  · exact hex2At_of_isNumeral na fun i => key (pre := pc ++ sp) (post := b ++ c ++ d ++ e ++ f ++ h' ++ l)
      (by simp [← hD]) (by simp [*]) la
  · exact hex2At_of_isNumeral nb fun i => key (pre := pc ++ sp ++ a) (post := c ++ d ++ e ++ f ++ h' ++ l)
      (by simp [← hD]) (by simp [*]) lb
  · exact hex2At_of_isNumeral nc fun i => key (pre := pc ++ sp ++ a ++ b) (post := d ++ e ++ f ++ h' ++ l)
      (by simp [← hD]) (by simp [*]) lc
  · exact hex2At_of_isNumeral nd fun i => key (pre := pc ++ sp ++ a ++ b ++ c) (post := e ++ f ++ h' ++ l)
      (by simp [← hD]) (by simp [*]) ld
  · exact hex2At_of_isNumeral ne fun i => key (pre := pc ++ sp ++ a ++ b ++ c ++ d) (post := f ++ h' ++ l)
      (by simp [← hD]) (by simp [*]) le
  · exact hex2At_of_isNumeral nf fun i => key (pre := pc ++ sp ++ a ++ b ++ c ++ d ++ e) (post := h' ++ l)
      (by simp [← hD]) (by simp [*]) lf
  · exact hex2At_of_isNumeral nh fun i => key (pre := pc ++ sp ++ a ++ b ++ c ++ d ++ e ++ f) (post := l)
      (by simp [← hD]) (by simp [*]) lh
  · exact hex2At_of_isNumeral nl fun i => key (pre := pc ++ sp ++ a ++ b ++ c ++ d ++ e ++ f ++ h') (post := [])
      (by simp [← hD]) (by simp [*]) ll

theorem cpuTextIn_mk (upper : Nat → Bool) (labels : RegTexts) (order : List EngineFlag) (lead : EngineFlag → Text)
    (tail : Text) (r : Regs) :
    cpuTextIn ⟨upper, labels, order, lead, tail⟩ r =
      regLine labels (regNumerals upper r) ++ flagNames ⟨upper, labels, order, lead, tail⟩ r.f ++ tail := rfl

/-! ### Flags -/

/-- Whatever order a style gives, each named flag stands in the sequence exactly once. -/
theorem flagSequence_nodup (order : List EngineFlag) : (flagSequence order).Nodup := by
  refine List.Nodup.append (List.nodup_dedup _) ((by decide : namedFlags.Nodup).filter _) fun x hx hy => ?_
  simp only [List.mem_dedup, List.mem_filter, decide_eq_true_eq] at hx hy
  exact hy.2 hx

theorem mem_flagSequence (order : List EngineFlag) (x : EngineFlag) : x ∈ flagSequence order := by
  have hx : x ∈ namedFlags := by cases x <;> decide
  by_cases h : x ∈ order <;> simp [flagSequence, h, hx]

/-- The names printed are those of the set flags, each after its lead, in the order of the sequence. -/
theorem flagNames_eq (st : CpuStyle) (f : Byte) :
    flagNames st f =
      ((flagSequence st.flagOrder).filter fun x => f.getLsbD x.bit).flatMap fun x => st.flagLead x ++ x.label := by
  unfold flagNames
  induction flagSequence st.flagOrder with
  | nil => rfl
  | cons x xs ih => cases h : f.getLsbD x.bit <;> simp [h, ih]

/-- Where a style lists the set flags and no other, once each, it prints them in its order. -/
theorem filter_flagSequence {order : List EngineFlag} {f : Byte} (hd : order.Nodup)
    (hm : ∀ x, x ∈ order ↔ f.getLsbD x.bit = true) :
    (flagSequence order).filter (fun x => f.getLsbD x.bit) = order := by
  have hset : order.filter (fun x => f.getLsbD x.bit) = order :=
    List.filter_eq_self.mpr fun x hx => (hm x).mp hx
  have hrest : (namedFlags.filter fun x => decide (x ∉ order)).filter (fun x => f.getLsbD x.bit) = [] := by
    simp only [List.filter_filter, List.filter_eq_nil_iff, Bool.and_eq_true, decide_eq_true_eq]
    exact fun x _ hx => hx.2 ((hm x).mpr hx.1)
  rw [flagSequence, List.filter_append, hd.dedup, hset, hrest, List.append_nil]

/-! ### The memory text -/

/-- The bytes a format is given are those of the memory. -/
theorem map_getD_range (bytes : List Byte) :
    (List.range bytes.length).map (fun i => bytes.getD i 0x00#8) = bytes := by
  apply List.ext_getElem
  · simp
  · intro i h1 h2
    simp [h2]

/-- The text of a list of bytes, in the style the format gives for it. -/
theorem fmtMem_bytes (F : MemFormat) (bytes : List Byte) :
    fmtMem F bytes.length (bytes.getD · 0x00#8) = memTextIn (F bytes) bytes.length (bytes.getD · 0x00#8) := by
  rw [fmtMem, map_getD_range]

/-- The bytes of a row depend only on the bytes of memory below `n`. -/
theorem memRow_congr {st : MemStyle} {n r : Nat} {f g : Nat → Byte} (h : ∀ i, i < n → f i = g i) :
    memRow st n f r = memRow st n g r := by
  have hj : ∀ j ∈ List.range (min 16 (n - 16 * r)), f (16 * r + j) = g (16 * r + j) := fun j hj =>
    h _ (by have := List.mem_range.mp hj; omega)
  unfold memRow
  congr 2
  exact List.map_congr_left fun j hj' => by rw [hj j hj']

end Sys2Proof.Machine
end

