-- ==== Sys2Proof/Tests/Slice0.lean ====
section
/-! SUPPORT. The model's own tests: the WellFormed smoke, the words of spec/30_encoding.md written out, the vectors of
spec/95_test_vectors.md with its test engine ECHO, and a witness for the hypotheses of every statement that has
some. Every expected value is copied from the spec. -/

namespace Sys2Proof.Tests

open Sys2Proof Sys2Proof.Machine

/-! ### Fixtures -/

/-- `n` cycles of ECHO from `pc` (95_test_vectors.md 3.1). -/
def echoRun : Nat → Addr → Run
  | 0, pc => .done ⟨pc.toNat⟩
  | n + 1, pc => .ior 0xFF#8 fun v => .iow 0xFF#8 v (.memw pc v (echoRun n (pc + 1#16)))

/-- The test engine ECHO (95_test_vectors.md 3.1). -/
def echo : Engine where
  init := ⟨0⟩
  reset _ := ⟨0⟩
  status es := ⟨BitVec.ofNat 16 es.code, 0, 0, 0, 0, 0, 0, 0, 0, 0⟩
  step n es := echoRun n (BitVec.ofNat 16 es.code)

/-- The parameters of the vectors: N, a switch source, ZERO fill. -/
def cfgOf (top : Fin 65536) : Cfg := ⟨top, .zero, true⟩

/-- A constructed machine of 8 bytes, `CLOCK_RATE_HZ = 3000`. -/
def off8 : State := State.construct (cfgOf 7) 3000 ⟨0⟩

/-- ON_IDLE. -/
def on8 : State := { off8 with pwr := true, stat := true, wait := true }

/-- ON_RUNNING, its tick outstanding. -/
def running8 : State := { on8 with run := true, tp := true, wait := false }

/-- The bytes from index `i` on as a canonical memory. -/
def memOf (i : Nat) : List Byte → Memory
  | [] => []
  | v :: vs => Memory.consCell i v (memOf (i + 1) vs)

/-- `MEM = [10,11,12,13,14,15,16,17]` (95_test_vectors.md S1, 2.5). -/
def ramp8 : Memory := memOf 0 [0x10, 0x11, 0x12, 0x13, 0x14, 0x15, 0x16, 0x17]

/-- The state an outcome holds; a fault or a refusal gives `none`. -/
def nextOf : Host.Outcome State Fault Refusal → Option State
  | .next s => some s
  | .fault _ => none
  | .refused _ => none

/-! ### WellFormed: one ill-formed term for each check -/

theorem test_wf_rejects_loader_code_in_format_c :
    Request.wellFormed (.c 0xB#4) = false ∧ Request.wellFormed (.c 0xC#4) = false := by decide
theorem test_wf_rejects_absent_payload : Request.wellFormed (.cl 0xB0000#20 .absent) = false := by decide
theorem test_wf_rejects_bytes_for_loadhex : Request.wellFormed (.cl 0xC0000#20 (.bytes [])) = false := by decide
theorem test_wf_rejects_text_for_load : Request.wellFormed (.cl 0xB0000#20 (.text [])) = false := by decide
theorem test_wf_rejects_other_code_in_format_cl : Request.wellFormed (.cl 0x70000#20 (.bytes [])) = false := by decide
theorem test_wf_rejects_tick_not_asserted : Request.wellFormed (.t 0#1) = false := by decide
theorem test_input_wf_rejects_bus_request : Input.wellFormed (.request (.b 0x0000A00#26)) = false := by decide
theorem test_input_wf_rejects_malformed : Input.wellFormed (.request (.t 0#1)) = false := by decide
theorem test_input_wf_accepts_panel_command : Input.wellFormed (.request (.c 0x1#4)) = true := by decide

/-! ### Decoding: words written out from 30_encoding.md R81 to R84, 95_test_vectors.md 2.2, 2.6, 2.7 -/

theorem test_decode_commands :
    [decode (.c 0b0000#4), decode (.c 0b0001#4), decode (.c 0b0010#4), decode (.c 0b0011#4), decode (.c 0b0100#4),
      decode (.c 0b0101#4), decode (.c 0b0110#4), decode (.c 0b0111#4)].map Except.toOption =
    [some .reserved0, some .pwron, some .pwroff, some .reset, some .run, some .stop, some .step, some .exam] := by
  decide
theorem test_decode_commands_from_8 :
    [decode (.c 0b1000#4), decode (.c 0b1001#4), decode (.c 0b1010#4), decode (.c 0b1101#4), decode (.c 0b1110#4),
      decode (.c 0b1111#4)].map Except.toOption =
    [some .examnxt, some .dep, some .depnxt, some .reservedD, some .reservedE, some .reservedF] := by decide
theorem test_decode_load : (decode (.cl 0b10110000000000000110#20 (.bytes [0x11, 0x22]))).toOption =
    some (.load 0x0006 [0x11, 0x22]) := by decide
theorem test_decode_loadhex : (decode (.cl 0b11000000000000000001#20 (.text ['5']))).toOption =
    some (.loadhex 0x0001 ['5']) := by decide
theorem test_decode_memr : (decode (.b 0b00000000000000101000000000#26)).toOption = some (.memr 0x000A) := by decide
theorem test_decode_memw : (decode (.b 0b01111111111111111100010010#26)).toOption = some (.memw 0xFFFF 0x12) := by
  decide
theorem test_decode_ior : (decode (.b 0b10000100101111111100000000#26)).toOption = some (.ior 0xFF) := by decide
theorem test_decode_iow : (decode (.b 0b11000000001111111110000001#26)).toOption = some (.iow 0xFF 0x81) := by decide
theorem test_decode_tick : (decode (.t 0b1#1)).toOption = some .tick := by decide

/-- Each row of spec/opcode_table.json at its own width. -/
theorem test_table_words :
    decodeTableWord 4 0x1 = some .pwron ∧ decodeTableWord 8 0xA = some .depnxt ∧
    decodeTableWord 20 0xB0002 = some (.load 2 []) ∧ decodeTableWord 24 0xC0000 = some (.loadhex 0 []) ∧
    decodeTableWord 26 0x1FFFF12 = some (.memw 0xFFFF 0x12) ∧ decodeTableWord 32 0x300FF81 = some (.iow 0xFF 0x81) ∧
    decodeTableWord 1 1 = some .tick ∧ decodeTableWord 1 0 = none ∧ decodeTableWord 8 0x10 = none := by decide

/-- A placed request is the next one a step runs. -/
theorem test_placed_request_runs :
    step (State.reset.withFetchWord 4 0x4) = exec .run { State.reset with inputs := [] } ∧
    step (State.reset.withFetchWord 26 0x1000512) = exec (.memw 5 0x12) { State.reset with inputs := [] } ∧
    step (State.reset.withFetchWord 1 1) = exec .tick { State.reset with inputs := [], tp := true } :=
  ⟨rfl, rfl, rfl⟩

/-! ### Memory and the Bus Adapter (95_test_vectors.md S1, 2.1, 2.2) -/

theorem test_memr_reduces_the_address :
    (nextOf (exec (.memr 0x000A) { on8 with mem := ramp8 })).map State.reply = some (some 0x12) ∧
    (nextOf (exec (.memr 0xFFFF) { on8 with mem := ramp8 })).map State.reply = some (some 0x17) := by decide
theorem test_memr_three_bytes :
    memRead { on8 with cfg := cfgOf 2, mem := memOf 0 [0xA0, 0xA1, 0xA2] } 0xFFFF = 0xA0 := by decide
theorem test_memw_reduces_the_address :
    (nextOf (exec (.memw 0xFFFF 0x12) on8)).map State.mem = some [(7, 0x12)] := by decide
theorem test_memw_zero_unlists_the_cell :
    (nextOf (exec (.memw 0x000F 0x00) { on8 with mem := [(7, 0x12)] })).map State.mem = some [] := by decide
theorem test_ior_reads_the_high_switches :
    (nextOf (exec (.ior 0xFF) { on8 with sw := 0xA55A })).map State.reply = some (some 0xA5) := by decide
theorem test_ior_other_port_and_no_source :
    (nextOf (exec (.ior 0xFE) { on8 with sw := 0xFFFF })).map State.reply = some (some 0x00) ∧
    portRead { on8 with cfg := { cfgOf 7 with swPresent := false }, sw := 0xA55A } 0xFF = 0x00 := by decide
theorem test_iow_drives_out :
    (nextOf (exec (.iow 0xFF 0x81) on8)).map State.out = some 0x81 ∧
    indicatorBits 0x81#8 = [true, false, false, false, false, false, false, true] := by decide
theorem test_iow_other_port_is_swallowed : nextOf (exec (.iow 0x10 0x81) on8) = some on8 := by decide

/-! ### Power, reset, run, stop, step (95_test_vectors.md 2.4, S5, S6, S7) -/

theorem test_pwron_from_off :
    let t := panelPwron echo { off8 with mem := ramp8, la := 2, es := ⟨5⟩, out := 0x12 }
    t.mem = [] ∧ t.la = 0 ∧ t.pwr = true ∧ t.run = false ∧ t.stat = true ∧ t.wait = true ∧ t.es = ⟨0⟩ ∧ t.out = 0x12 ∧
      t.aind = 0 ∧ t.dbgCpu = [] := by decide
theorem test_pwron_while_on_is_ignored :
    panelPwron echo { on8 with mem := ramp8, la := 2 } = { on8 with mem := ramp8, la := 2 } := by decide
theorem test_pwroff_while_running :
    let t := panelPwroff { running8 with aind := 0x0009, mem := ramp8, la := 1, dbgMem := ['x'], out := 0x12 }
    t.pwr = false ∧ t.run = false ∧ t.tp = true ∧ t.aind = 0 ∧ t.stat = false ∧ t.dbgMem = [] ∧ t.la = 1 ∧
      t.mem = ramp8 ∧ t.out = 0x12 := by decide
theorem test_pwroff_while_off_emits_six : (panelPwroff off8).trace.length = 6 := by decide
theorem test_reset_while_running :
    let t := panelReset echo { running8 with la := 0x0102, es := ⟨5⟩, mem := ramp8 }
    t.run = false ∧ t.tp = true ∧ t.wait = false ∧ t.la = 0 ∧ t.es = ⟨0⟩ ∧ t.mem = ramp8 ∧
      t.trace.take 4 = [.aind 0xFFFF, .dind 0xFF, .aind 0, .dind 0] := by decide
theorem test_reset_while_off_is_ignored :
    panelReset echo { off8 with la := 1, es := ⟨5⟩ } = { off8 with la := 1, es := ⟨5⟩ } := by decide
theorem test_run_from_idle : panelRun on8 = { running8 with trace := [.wait false] } := by decide
theorem test_stop_keeps_the_tick :
    panelStop running8 = { on8 with tp := true, trace := [.wait true] } := by decide
theorem test_step_one_echo_cycle :
    let t := panelStep echo { on8 with sw := 0xA500, la := 3 }
    t.mem = [(0, 0xA5)] ∧ t.out = 0xA5 ∧ t.es = ⟨1⟩ ∧ t.aind = 1 ∧ t.dind = 0 ∧ t.la = 3 ∧ t.tp = false := by decide
theorem test_step_while_running_is_ignored : panelStep echo running8 = running8 := by decide

/-! ### Ticks (95_test_vectors.md 2.3, P2) -/

theorem test_tick_three_cycles_wrap :
    let t := schedulerTick echo { running8 with
      sw := 0x0F00, es := ⟨6⟩, mem := memOf 0 [0xA5, 0xA5, 0xA5, 0x3C, 0x3C, 0x3C] }
    t.mem = memOf 0 [0x0F, 0xA5, 0xA5, 0x3C, 0x3C, 0x3C, 0x0F, 0x0F] ∧ t.out = 0x0F ∧ t.es = ⟨9⟩ ∧ t.aind = 9 ∧
      t.dind = 0xA5 ∧ t.tp = true ∧ t.run = true := by decide
theorem test_tick_after_stop :
    schedulerTick echo { on8 with tp := true } = on8 ∧
    [0, 1, 999, 1000, 1999, 2500, 2000000].map (fun hz => sliceCycles { on8 with clockRateHz := hz }) =
      [0, 0, 0, 1, 1, 2, 2000] := by decide

/-! ### Examine and deposit (95_test_vectors.md 2.5) -/

theorem test_exam_beyond_n :
    let t := panelExam echo { on8 with mem := ramp8, sw := 0x000B }
    t.la = 0x000B ∧ t.aind = 0x000B ∧ t.dind = 0x13 := by decide
theorem test_exam_without_switches :
    let t := panelExam echo { on8 with cfg := { cfgOf 7 with swPresent := false }, mem := ramp8, sw := 3, la := 5 }
    t.la = 0 ∧ t.dind = 0x10 := by decide
theorem test_examnxt_wraps_at_16_bits :
    let t := panelExamnxt echo { on8 with mem := ramp8, la := 0xFFFF, sw := 0xFFFF }
    t.la = 0 ∧ t.aind = 0 ∧ t.dind = 0x10 := by decide
theorem test_examnxt_passes_n :
    let t := panelExamnxt echo { on8 with mem := ramp8, la := 0x0007 }
    t.la = 8 ∧ t.aind = 8 ∧ t.dind = 0x10 := by decide
theorem test_dep_low_byte :
    let t := panelDep echo { on8 with mem := ramp8, la := 3, sw := 0xAB5A }
    memRead t 3 = 0x5A ∧ t.aind = 3 ∧ t.dind = 0x5A ∧ t.la = 3 := by decide
theorem test_dep_through_an_alias :
    let t := panelDep echo { on8 with mem := ramp8, la := 0x000B, sw := 0x0001 }
    memRead t 3 = 0x01 ∧ t.aind = 0x000B := by decide
theorem test_depnxt_wraps_at_16_bits :
    let t := panelDepnxt echo { on8 with mem := ramp8, la := 0xFFFF, sw := 0x0099 }
    t.la = 0 ∧ memRead t 0 = 0x99 ∧ memRead t 7 = 0x17 := by decide
theorem test_depnxt_shows_the_address :
    let t := panelDepnxt echo { on8 with mem := ramp8, la := 0x0007, sw := 0x0042 }
    t.la = 8 ∧ memRead t 0 = 0x42 ∧ t.aind = 8 ∧ t.dind = 0x42 := by decide

/-! ### Bulk load (95_test_vectors.md 2.6, S4, P3) -/

theorem test_load_drops_past_the_end :
    (nextOf (exec (.load 0x0006 [0x11, 0x22, 0x33, 0x44]) on8)).map State.mem = some [(6, 0x11), (7, 0x22)] := by decide
theorem test_load_at_top_of_the_bus :
    nextOf (exec (.load 0xFFFF [0x11, 0x22]) on8) = some on8 ∧
    nextOf (exec (.load 0x0008 [0x11, 0x22]) on8) = some on8 := by decide
theorem test_loadhex_skips_invalid_tokens :
    (nextOf (exec (.loadhex 0x0000 "zz 05".toList) { on8 with mem := memOf 0 [0x77, 0x77] })).map State.mem =
      some (memOf 0 [0x77, 0x05]) := by decide
theorem test_loadhex_mixed :
    (nextOf (exec (.loadhex 0x0002 "1 zz  FF\t7f 100".toList) on8)).map State.mem =
      some [(2, 0x01), (4, 0xFF), (5, 0x7F)] := by decide

/-! ### Reserved codes and a switch change -/

theorem test_reserved_codes_while_running :
    [Instr.reserved0, .reservedD, .reservedE, .reservedF].map (fun i => nextOf (exec i running8)) =
      [some running8, some running8, some running8, some running8] := by decide
theorem test_switch_event :
    nextOf (step { on8 with inputs := [.switches 0x1234] }) = some { on8 with sw := 0x1234 } := by decide
theorem test_malformed_request_is_refused :
    nextOf (step { on8 with inputs := [.request (.c 0xB#4)] }) = none := by decide

/-! ### Debug texts (95_test_vectors.md 2.8) -/

theorem test_cpu_text_with_flags :
    fmtCpu conformingCpuFormat ⟨0x0003, 0xFFFE, 0x80, 0, 0, 0, 0, 0x85, 0x12, 0x34⟩ =
      "PC:0003 SP:fffe A:80 B:00 C:00 D:00 E:00 F:85 H:12 L:34 SIGN PARITY CARRY".toList := by decide
theorem test_cpu_text_unnamed_bits :
    fmtCpu conformingCpuFormat ⟨0, 0, 0, 0, 0, 0, 0, 0x2A, 0, 0⟩ =
      "PC:0000 SP:0000 A:00 B:00 C:00 D:00 E:00 F:2a H:00 L:00".toList := by decide
theorem test_mem_text_16 :
    fmtMem conformingMemFormat 16 (BitVec.ofNat 8) =
      "0000 00 01 02 03 04 05 06 07  08 09 0a 0b 0c 0d 0e 0f".toList := by decide
theorem test_mem_text_18 :
    fmtMem conformingMemFormat 18 (Memory.read [(16, 0xC3)]) =
      "0000 00 00 00 00 00 00 00 00  00 00 00 00 00 00 00 00\n0010 c3 00".toList := by decide
/-- A format R107 admits beside the conforming one: upper case, comma-joined flag names, a line end. -/
theorem test_cpu_text_of_another_format :
    fmtCpu (fun r => { conformingCpuStyle with
        upper := fun _ => true
        flagOrder := [.carry]
        flagLead := fun x => if x = .carry ∨ r.f.getLsbD 0 = false then [' '] else [',']
        tail := ['\n'] })
      ⟨0x00AF, 0, 0, 0, 0, 0, 0, 0x81, 0, 0⟩ =
      "PC:00AF SP:0000 A:00 B:00 C:00 D:00 E:00 F:81 H:00 L:00 CARRY,SIGN\n".toList := by decide
/-- A format R108 admits beside the conforming one: a trailing space in a full row, a last row of a shape of its own,
a line end after it. -/
theorem test_mem_text_of_another_format :
    fmtMem (fun _ => { conformingMemStyle 17 with after := fun _ => " \n".toList, tail := "ff@16\n".toList }) 17
        (fun _ => 0xFF) =
      "0000 ff ff ff ff ff ff ff ff  ff ff ff ff ff ff ff ff \nff@16\n".toList := by decide

/-! ### Witnesses: for each statement with hypotheses, a state and operands that meet all of them -/

/-- A session of three events: a switch change, a command, a tick. -/
def someEvents : List Input := [.switches 0x1234, .request (.c 0x5#4), .request (.t 1#1)]

theorem witness_WellFormedRequestsDecode :
    Request.wellFormed (.c 0xF#4) = true ∧ Request.wellFormed (.cl 0xB0002#20 (.bytes [0xC3])) = true ∧
    Request.wellFormed (.cl 0xCFFFF#20 (.text [])) = true ∧ Request.wellFormed (.b 0x3FFFFFF#26) = true ∧
    Request.wellFormed (.t 1#1) = true ∧ Request.fromEngine (.t 1#1) = false := by decide
theorem witness_StepRunsTheDecodedRequest :
    ({ on8 with inputs := [.request (.c 0x5#4)] } : State).inputs = .request (.c 0x5#4) :: [] ∧
    decode (.c 0x5#4) = .ok .stop := ⟨rfl, rfl⟩
theorem witness_StepTakesASwitchChange :
    ({ on8 with inputs := someEvents } : State).inputs = .switches 0x1234 :: someEvents.tail := rfl
theorem witness_StepWithNoEventFiresThePendingTick :
    (running8.inputs = [] ∧ running8.tp = true) ∧ (on8.inputs = [] ∧ on8.tp = false) := by decide
theorem witness_StepRefusesAMalformedRequest :
    ({ on8 with inputs := [.request (.t 0#1)] } : State).inputs = .request (.t 0#1) :: [] ∧
    decode (.t 0#1) = .error .tickNotRequested := ⟨rfl, rfl⟩
theorem witness_StepOnWellFormedEventsYieldsANextState :
    (∀ r, on8.inputs.head? = some (.request r) → r.wellFormed = true) ∧
    (∀ r, ({ on8 with inputs := [.request (.c 0x5#4)] } : State).inputs.head? = some (.request r) →
      r.wellFormed = true) :=
  ⟨by simp [on8, off8, State.construct], by simp [Request.wellFormed, isLoaderCode]⟩
/-- Also of MemoryIsAddressedModuloN, DepStoresAtTheCursor, DepnxtAdvancesThenStores, LoadWritesWithoutWrapping and
LoadhexPlacesTokensAtTheirSlots: a powered state whose memory is canonical, the cursor at the top of the bus. -/
theorem witness_MemwWritesOneByteAndItsAliases :
    let s := { on8 with mem := ramp8, la := 0xFFFF, sw := 0xAB5A }
    s.mem.wf = true ∧ s.pwr = true ∧ (0x0000#16).toNat = (s.la.toNat + 1) % 65536 ∧
      0x5A#8 = (if s.cfg.swPresent = true then s.sw.extractLsb' 0 8 else 0x00#8) := by decide
theorem witness_DepWithoutSwitches :
    let s := { on8 with cfg := { cfgOf 7 with swPresent := false }, sw := 0xAB5A }
    s.mem.wf = true ∧ s.pwr = true ∧
      0x00#8 = (if s.cfg.swPresent = true then s.sw.extractLsb' 0 8 else 0x00#8) := by decide
/-- Each side of the loader's bound, at its edge: the last byte inside N is written, the first past it is not. -/
theorem witness_LoadWritesWithoutWrapping_bounds :
    let t := loadSlots 0x0006 [some 0x11, some 0x22, some 0x33] on8
    [5, 6, 7, 8].map (Memory.read t.mem) = [0x00, 0x11, 0x22, 0x00] := by decide
theorem witness_BusRunTouchesOnlyMemoryAndOutput :
    ∃ t, BusRun (.ior 0xFF fun v => .iow 0xFF v (.memw 9 v (.done ⟨1⟩))) { on8 with sw := 0xA500 } t ∧
      t.out = 0xA5 ∧ t.mem = [(1, 0xA5)] :=
  ⟨_, .ior rfl rfl (.iow rfl (.memw rfl (.done _ _))), by decide⟩
theorem witness_TickRunsOneSlice : running8.tp = true ∧ running8.run = true := by decide
theorem witness_TickRunsOneSlice_after_stop :
    ({ on8 with tp := true } : State).tp = true ∧ ({ on8 with tp := true } : State).run = false := by decide
theorem witness_TickNotPendingDoesNothing : on8.tp = false := by decide
theorem witness_FillWritesEveryByte :
    off8.cfg.fillMode = .zero ∧
      ({ off8 with cfg := { cfgOf 7 with fillMode := .random } } : State).cfg.fillMode = .random := by decide
/-- Both gates of PWRON; `off8` also meets the powered-off clause of every other command. -/
theorem witness_PwronRefillsAndLights : off8.pwr = false ∧ on8.pwr = true := by decide
/-- Also of RESET, RUN and STOP, which only ask for a powered machine. -/
theorem witness_StepCommandRunsOneCycle : on8.pwr = true ∧ on8.run = false := by decide
theorem witness_StepCommandRunsOneCycle_ignored : running8.run = true ∧ running8.pwr = true := by decide
theorem witness_ExamLoadsTheCursorAndShowsIt :
    let s := { on8 with sw := 0xFFFF }
    let u := { s with cfg := { cfgOf 7 with swPresent := false } }
    (s.pwr = true ∧ 0xFFFF#16 = if s.cfg.swPresent = true then s.sw else 0x0000#16) ∧
      (u.pwr = true ∧ 0x0000#16 = if u.cfg.swPresent = true then u.sw else 0x0000#16) := by decide
theorem witness_ExamnxtAdvancesTheCursorAndShowsIt :
    on8.pwr = true ∧ (0x0001#16).toNat = (on8.la.toNat + 1) % 65536 ∧
      (0x0000#16).toNat = (({ on8 with la := 0xFFFF } : State).la.toNat + 1) % 65536 := by decide
theorem witness_PowerGateIgnoresCommands :
    off8.pwr = false ∧ Instr.depnxt ∈ ([.reset, .run, .stop, .step, .exam, .examnxt, .dep, .depnxt,
      .load 0 [], .loadhex 0 []] : List Instr) := by decide
theorem witness_LoadEqualsDeposits :
    let s := { on8 with inputs := depositScript 0x0006 [0x11, 0x22] ++ someEvents }
    s.pwr = true ∧ s.cfg.swPresent = true ∧ (0x0006#16).toNat + [0x11#8, 0x22#8].length ≤ s.cfg.size ∧
      s.inputs = depositScript 0x0006 [0x11, 0x22] ++ someEvents := by decide
theorem witness_TokensValidityAndValue :
    isWhitespace '\t' = true ∧ ['z', 'z'] ≠ [] ∧ (∀ c ∈ ['z', 'z'], isWhitespace c = false) := by
  simp [isWhitespace]
theorem witness_TokensValidityAndValue_bytes :
    tokenByte "5".toList = some 0x05 ∧ tokenByte "C3".toList = some 0xC3 ∧ tokenByte "ff".toList = some 0xFF ∧
      tokenByte "100".toList = none ∧ tokenByte "g0".toList = none ∧ tokenByte [] = none := by decide
theorem witness_MemoryRowShowsItsBytes : 16 * 0 < 1 ∧ 16 * 1 < 18 ∧ 16 * 4095 < 65536 := by omega
/-- Of each direction WritersOfTheFlags states: power up, power down, start, stop, the first tick, the empty tick. -/
theorem witness_WritersOfTheFlags :
    (∃ t, exec .pwron off8 = .next t ∧ off8.pwr = false ∧ t.pwr = true) ∧
    (∃ t, exec .pwroff running8 = .next t ∧ running8.pwr = true ∧ t.pwr = false ∧ running8.run = true ∧
      t.run = false) ∧
    (∃ t, exec .run on8 = .next t ∧ on8.run = false ∧ t.run = true ∧ on8.tp = false ∧ t.tp = true) ∧
    (∃ t, exec .tick { on8 with tp := true } = .next t ∧ t.tp = false) :=
  ⟨⟨_, rfl, rfl, rfl⟩, ⟨_, rfl, rfl, rfl, rfl, rfl⟩, ⟨_, rfl, rfl, rfl, rfl, rfl⟩, ⟨_, rfl, rfl⟩⟩
/-- Of the other Writers statements: executions that change LA and MEM, WAIT and STAT, OUT. -/
theorem witness_Writers :
    (∃ t, exec .depnxt { on8 with sw := 0x5A } = .next t ∧ t.la ≠ on8.la ∧ t.mem ≠ on8.mem) ∧
    (∃ t, exec .pwroff on8 = .next t ∧ t.wait ≠ on8.wait ∧ t.stat ≠ on8.stat) ∧
    (∃ t, exec (.iow 0xFF 0x81) on8 = .next t ∧ t.out ≠ on8.out) :=
  ⟨⟨_, rfl, by decide, by decide⟩, ⟨_, rfl, by decide, by decide⟩, ⟨_, rfl, by decide⟩⟩
/-- A step from a state that meets the invariants; also of ConfigurationNeverChanges and TraceOnlyGrows. -/
theorem witness_StepKeepsTheInvariants :
    ({ running8 with inputs := someEvents } : State).Inv ∧
      ∃ t, step { running8 with inputs := someEvents } = .next t :=
  ⟨by constructor <;> decide, ⟨_, rfl⟩⟩
theorem witness_TransitionTable :
    protocol off8 = some .off ∧ protocol on8 = some .onIdle ∧ protocol running8 = some .onRunning ∧
      ignoredIn .pwron .onRunning = true ∧ running8.tp = true := by decide
/-- Also of EngineStepsIgnoreTheCursor, whose only hypothesis is that the operation is STEP or TICK. -/
theorem witness_EngineStepsIgnoreTheLowSwitches :
    (0xA5FF#16).extractLsb' 8 8 = ({ on8 with sw := 0xA500 } : State).sw.extractLsb' 8 8 := by decide
theorem witness_LatchesHoldTheLastEmission :
    ({ on8 with trace := [.wait false, .stat true, .wait true] } : State).LatchesHoldTrace ∧
      ∃ t, step on8 = .next t :=
  ⟨by constructor <;> decide, ⟨_, rfl⟩⟩
theorem witness_NoEngineCycleAfterStop :
    let s := { on8 with tp := true, inputs := someEvents }
    s.run = false ∧ (∀ x ∈ s.inputs, x.onlyIf (fun i => !i.touchesEngine) = true) ∧ ∃ t, runSteps 3 s = .next t :=
  ⟨rfl, by decide, ⟨_, rfl⟩⟩
theorem witness_OffIsInert :
    let s := { off8 with tp := true, mem := ramp8, inputs := someEvents }
    s.Inv ∧ s.pwr = false ∧
      (∀ x ∈ s.inputs, x.wellFormed = true ∧ x.onlyIf (fun i => decide (i ≠ .pwron)) = true) ∧
      ∃ t, runSteps 3 s = .next t :=
  ⟨by constructor <;> decide, rfl, by decide, ⟨_, rfl⟩⟩

end Sys2Proof.Tests
end

section
/-! The step on a waiting request (spec/00_scope.md R8). -/

namespace Sys2Proof.Machine

/-- The step's rule for a waiting request that decodes: the request leaves the queue and its operation runs. -/
theorem step_of_request {s : State} {r : Request} {rest : List Input} {i : Instr}
    (hin : s.inputs = .request r :: rest) (hdec : decode r = .ok i) :
    step s = exec i { s with inputs := rest } := by
  simp only [step, hin, hdec]

/-- Settles O5, by the step's rule for a waiting request. -/
theorem stepRunsTheDecodedRequest : Obligations.StepRunsTheDecodedRequest :=
  fun _ _ _ _ hin hdec => step_of_request hin hdec

end Sys2Proof.Machine
end

section
/-! What an operation can do: one inversion lemma for `exec`, from which every statement about its writers, the
invariants, the latches and the trace is read off. -/

namespace Sys2Proof.Machine

/-! ### One engine slice -/

section EngineSlice

variable (E : Engine) (n : Nat) (s : State)

@[simp] theorem engineSlice_cfg :
    (refreshDebug E (refreshAfterStep E (engineStep E n s))).cfg = s.cfg := by simp [engineSlice_eq]
@[simp] theorem engineSlice_clockRateHz :
    (refreshDebug E (refreshAfterStep E (engineStep E n s))).clockRateHz = s.clockRateHz := by
  simp [engineSlice_eq]
@[simp] theorem engineSlice_pwr :
    (refreshDebug E (refreshAfterStep E (engineStep E n s))).pwr = s.pwr := by simp [engineSlice_eq]
@[simp] theorem engineSlice_run :
    (refreshDebug E (refreshAfterStep E (engineStep E n s))).run = s.run := by simp [engineSlice_eq]
@[simp] theorem engineSlice_tp :
    (refreshDebug E (refreshAfterStep E (engineStep E n s))).tp = s.tp := by simp [engineSlice_eq]
@[simp] theorem engineSlice_la :
    (refreshDebug E (refreshAfterStep E (engineStep E n s))).la = s.la := by simp [engineSlice_eq]
@[simp] theorem engineSlice_wait :
    (refreshDebug E (refreshAfterStep E (engineStep E n s))).wait = s.wait := by simp [engineSlice_eq]
@[simp] theorem engineSlice_stat :
    (refreshDebug E (refreshAfterStep E (engineStep E n s))).stat = s.stat := by simp [engineSlice_eq]

/-- One engine slice with its refreshes keeps MEM canonical and within its N elements. -/
theorem engineSlice_mem (hbelow : s.mem.below s.cfg.size = true) (hwf : s.mem.wf = true) :
    let t := refreshDebug E (refreshAfterStep E (engineStep E n s))
    t.mem.below t.cfg.size = true ∧ t.mem.wf = true := by
  simp only [engineSlice_eq, runEngine_cfg]
  exact ⟨runEngine_below _ s hbelow, runEngine_wf _ s hwf⟩

end EngineSlice

/-! ### The effects -/

/-- The gates at which an operation changes nothing: the power gate and those of PWRON and STEP (43_front_panel.md R151,
R140, R145), a tick that is not outstanding, an unwired port, the reserved codes. -/
def Ignored : Instr → State → Prop
  | .reset, s | .run, s | .stop, s | .exam, s | .examnxt, s | .dep, s | .depnxt, s | .load _ _, s
  | .loadhex _ _, s => s.pwr = false
  | .pwron, s => s.pwr = true
  | .step, s => ¬ (s.pwr = true ∧ s.run = false)
  | .tick, s => s.tp = false
  | .iow port _, _ => port ≠ wiredPort
  | .reserved0, _ | .reservedD, _ | .reservedE, _ | .reservedF, _ => True
  | .pwroff, _ | .memr _, _ | .memw _ _, _ | .ior _, _ => False

/-- `Effect i s t`: one of the ways the operation `i` takes the state `s` to `t`, with the gate that lets it happen. -/
inductive Effect : Instr → State → State → Prop where
  /-- a gate of `Ignored` -/
  | unchanged {i : Instr} {s : State} (hign : Ignored i s) : Effect i s s
  /-- 43_front_panel.md R140 -/
  | pwron {s : State} (hoff : s.pwr = false) : Effect .pwron s
      { fill s with
        la := 0x0000#16, pwr := true, es := Config.engine.reset s.es, stat := true, wait := true
        trace := s.trace ++ [.stat true, .wait true] }
  /-- 43_front_panel.md R141 -/
  | pwroff (s : State) : Effect .pwroff s
      { s with
        aind := 0x0000#16, dind := 0x00#8, stat := false, wait := false, dbgCpu := [], dbgMem := []
        run := false, pwr := false
        trace := s.trace ++
          [.aind 0x0000#16, .dind 0x00#8, .stat false, .wait false, .dbgCpu [], .dbgMem []] }
  /-- 43_front_panel.md R142 -/
  | reset {s : State} (hon : s.pwr = true) : Effect .reset s
      { s with
        run := false, la := 0x0000#16, es := Config.engine.reset s.es, aind := 0x0000#16, dind := 0x00#8
        dbgCpu := cpuText Config.engine (engineReset Config.engine s), dbgMem := memText s
        trace := s.trace ++
          [.aind 0xFFFF#16, .dind 0xFF#8, .aind 0x0000#16, .dind 0x00#8,
           .dbgCpu (cpuText Config.engine (engineReset Config.engine s)), .dbgMem (memText s)] }
  /-- 43_front_panel.md R143 -/
  | run {s : State} (hon : s.pwr = true) : Effect .run s
      { s with run := true, tp := true, wait := false, trace := s.trace ++ [.wait false] }
  /-- 43_front_panel.md R144 -/
  | stop {s : State} (hon : s.pwr = true) : Effect .stop s
      { s with run := false, wait := true, trace := s.trace ++ [.wait true] }
  /-- 43_front_panel.md R145 -/
  | step {s : State} (hon : s.pwr = true) (hidle : s.run = false) : Effect .step s
      (refreshDebug Config.engine (refreshAfterStep Config.engine (engineStep Config.engine 1 s)))
  /-- 43_front_panel.md R146, R147: the cursor goes to `a` and is shown -/
  | examine {i : Instr} {s : State} {a : Addr}
      (hi : (i = .exam ∧ a = switchWord s) ∨ (i = .examnxt ∧ a = nextCursor s.la)) (hon : s.pwr = true) :
      Effect i s (refreshDebug Config.engine (refreshPanel a { s with la := a }))
  /-- 43_front_panel.md R148, R149: the cursor goes to `a`, where DEP has it already, and the byte stored there is shown -/
  | deposit {i : Instr} {s : State} {a : Addr}
      (hi : (i = .dep ∧ a = s.la) ∨ (i = .depnxt ∧ a = nextCursor s.la)) (hon : s.pwr = true) :
      Effect i s (refreshDebug Config.engine
        (refreshPanel a (memWrite a.toNat (switchLow s) { s with la := a })))
  /-- 44_bulk_load.md R160, R162 -/
  | load {i : Instr} {s : State} {a : Addr} {slots : List (Option Byte)}
      (hi : (∃ bs, i = .load a bs ∧ slots = bs.map some) ∨
        (∃ tx, i = .loadhex a tx ∧ slots = (tokens tx).map tokenByte)) (hon : s.pwr = true) :
      Effect i s { s with mem := Memory.storeSlots s.cfg.size a.toNat slots s.mem }
  /-- 41_bus_adapter.md R120, R122 -/
  | reply {i : Instr} {s : State} {v : Byte}
      (hi : (∃ a, i = .memr a ∧ v = memRead s a.toNat) ∨ (∃ port, i = .ior port ∧ v = portRead s port)) :
      Effect i s { s with reply := some v }
  /-- 41_bus_adapter.md R121 -/
  | memw (a : Addr) (v : Byte) (s : State) : Effect (.memw a v) s (memWrite a.toNat v s)
  /-- 41_bus_adapter.md R123, at the one wired port -/
  | iow (v : Byte) (s : State) : Effect (.iow wiredPort v) s
      { s with out := v, trace := s.trace ++ [.out v] }
  /-- 42_scheduler.md R133, after a stop -/
  | emptyTick {s : State} (hpending : s.tp = true) (hidle : s.run = false) : Effect .tick s { s with tp := false }
  /-- 42_scheduler.md R133, while running -/
  | workingTick {s : State} (hpending : s.tp = true) (hrunning : s.run = true) :
      Effect .tick s (tickWork Config.engine { s with tp := false })

/-! ### Each operation has one of these effects -/

/-- A command behind the power gate has the effect it has on a powered machine, or is ignored. -/
theorem Effect.whenPowered {i : Instr} {s : State} {f : State → State} (hoff : s.pwr = false → Ignored i s)
    (hon : s.pwr = true → Effect i s (f s)) : Effect i s (Machine.whenPowered f s) := by
  cases hp : s.pwr with
  | true => rw [whenPowered_on hp]; exact hon hp
  | false => rw [whenPowered_off hp]; exact .unchanged (hoff hp)

theorem panelPwron_effect (s : State) : Effect .pwron s (panelPwron Config.engine s) := by
  cases hp : s.pwr with
  | true => rw [panelPwron, if_pos hp]; exact .unchanged hp
  | false => simpa [panelPwron, hp, emit, engineReset] using Effect.pwron hp

theorem panelPwroff_effect (s : State) : Effect .pwroff s (panelPwroff s) := by
  rw [panelPwroff, clearPanel_eq]
  exact .pwroff s

theorem panelReset_effect (s : State) : Effect .reset s (panelReset Config.engine s) :=
  .whenPowered id fun hp => by
    rw [refreshDebug_eq, flash_eq]
    simpa [engineReset, cpuText, memText] using Effect.reset hp

theorem panelStep_effect (s : State) : Effect .step s (panelStep Config.engine s) := by
  rcases panelStep_cases Config.engine s with ⟨hgate, h⟩ | ⟨hp, hr, h⟩ <;> rw [h]
  · exact .unchanged hgate
  · exact .step hp hr

theorem busIow_effect (port v : Byte) (s : State) : Effect (.iow port v) s (busIow port v s) := by
  rcases busIow_cases port v s with ⟨rfl, h⟩ | ⟨hport, h⟩ <;> rw [h]
  · exact .iow v s
  · exact .unchanged hport

theorem schedulerTick_effect (s : State) : Effect .tick s (schedulerTick Config.engine s) := by
  rcases schedulerTick_cases Config.engine s with ⟨htp, h⟩ | ⟨htp, hr, h⟩ | ⟨htp, hr, h⟩ <;> rw [h]
  · exact .unchanged htp
  · exact .emptyTick htp hr
  · exact .workingTick htp hr

/-- Every operation ends in a next state, by one of the effects. -/
theorem exec_next_effect (i : Instr) (s : State) : ∃ t, exec i s = .next t ∧ Effect i s t := by
  cases i with
  | pwron => exact ⟨_, rfl, panelPwron_effect s⟩
  | pwroff => exact ⟨_, rfl, panelPwroff_effect s⟩
  | reset => exact ⟨_, rfl, panelReset_effect s⟩
  | run => exact ⟨_, rfl, .whenPowered id .run⟩
  | stop => exact ⟨_, rfl, .whenPowered id .stop⟩
  | step => exact ⟨_, rfl, panelStep_effect s⟩
  | exam => exact ⟨_, rfl, .whenPowered id (.examine (.inl ⟨rfl, rfl⟩))⟩
  | examnxt => exact ⟨_, rfl, .whenPowered id (.examine (.inr ⟨rfl, rfl⟩))⟩
  | dep => exact ⟨_, rfl, .whenPowered id (.deposit (.inl ⟨rfl, rfl⟩))⟩
  | depnxt => exact ⟨_, rfl, .whenPowered id (.deposit (.inr ⟨rfl, rfl⟩))⟩
  | load a bs => exact ⟨_, rfl, .whenPowered id (.load (.inl ⟨bs, rfl, rfl⟩))⟩
  | loadhex a tx => exact ⟨_, rfl, .whenPowered id (.load (.inr ⟨tx, rfl, rfl⟩))⟩
  | memr a => exact ⟨_, rfl, .reply (.inl ⟨a, rfl, rfl⟩)⟩
  | memw a v => exact ⟨_, rfl, .memw a v s⟩
  | ior port => exact ⟨_, rfl, .reply (.inr ⟨port, rfl, rfl⟩)⟩
  | iow port v => exact ⟨_, rfl, busIow_effect port v s⟩
  | tick => exact ⟨_, rfl, schedulerTick_effect s⟩
  | reserved0 | reservedD | reservedE | reservedF => exact ⟨_, rfl, .unchanged trivial⟩

/-- What an operation that answers `t` has done. -/
theorem exec_effect {i : Instr} {s t : State} (h : exec i s = .next t) : Effect i s t := by
  obtain ⟨u, hu, heff⟩ := exec_next_effect i s
  cases hu.symm.trans h
  exact heff

/-! ### From operations to steps -/

/-- What the environment and every operation keep, every step keeps. -/
theorem step_keeps {P : State → Prop} (henv : ∀ s queue w, P s → P { s with inputs := queue, sw := w })
    (heff : ∀ i s t, P s → Effect i s t → P t) {s t : State} (hs : P s) (h : step s = .next t) : P t := by
  rcases step_cases h with ⟨-, -, hx⟩ | ⟨-, -, rfl⟩ | ⟨w, rest, -, rfl⟩ | ⟨r, rest, i, -, -, hx⟩
  · exact heff _ _ _ hs (exec_effect hx)
  · exact hs
  · exact henv s rest w hs
  · exact heff _ _ _ (henv s rest s.sw hs) (exec_effect hx)

end Sys2Proof.Machine
end

section
/-! The invariants of spec/10_state.md R40. -/

namespace Sys2Proof.Machine

/-- On a powered machine the invariants speak of PWR, RUN, TP, WAIT, STAT and MEM only. -/
theorem State.Inv.of_powered {s t : State} (hs : s.Inv) (hon : s.pwr = true) (hpwr : t.pwr = s.pwr)
    (hrun : t.run = s.run) (htp : t.tp = s.tp) (hwait : t.wait = s.wait) (hstat : t.stat = s.stat)
    (hbelow : t.mem.below t.cfg.size = true) (hwf : t.mem.wf = true) : t.Inv where
  running_powered _ := hpwr.trans hon
  running_pending hr := htp.trans (hs.running_pending (hrun.symm.trans hr))
  off_dark hoff := by rw [hpwr, hon] at hoff; cases hoff
  stat_pwr := by rw [hstat, hpwr, hs.stat_pwr]
  running_wait hr := hwait.trans (hs.running_wait (hrun.symm.trans hr))
  mem_below := hbelow
  mem_wf := hwf

/-- In ON_IDLE the invariants ask of a machine only that STAT is lit and MEM is as it should be. -/
theorem State.Inv.of_idle {t : State} (hon : t.pwr = true) (hidle : t.run = false) (hstat : t.stat = true)
    (hbelow : t.mem.below t.cfg.size = true) (hwf : t.mem.wf = true) : t.Inv where
  running_powered _ := hon
  running_pending hr := by rw [hidle] at hr; cases hr
  off_dark hoff := by rw [hon] at hoff; cases hoff
  stat_pwr := hstat.trans hon.symm
  running_wait hr := by rw [hidle] at hr; cases hr
  mem_below := hbelow
  mem_wf := hwf

/-- A write through the bus keeps the invariants, powered or not. -/
theorem State.Inv.memWrite {s : State} (hs : s.Inv) (a : Nat) (v : Byte) : (Machine.memWrite a v s).Inv :=
  { hs with
    mem_below := Memory.below_write v (memIndex_lt s a) hs.mem_below
    mem_wf := Memory.wf_write _ v hs.mem_wf }

/-- Every operation keeps the invariants. -/
theorem Effect.keeps_inv {i : Instr} {s t : State} (h : Effect i s t) (hs : s.Inv) : t.Inv := by
  cases h with
  | unchanged => exact hs
  | pwron hoff =>
    have hidle : s.run = false := by
      cases hr : s.run with
      | false => rfl
      | true => simp [hs.running_powered hr] at hoff
    obtain ⟨hwf, hbelow⟩ := fill_mem s
    exact .of_idle rfl (by simp [hidle]) rfl (by simpa using hbelow) hwf
  | pwroff =>
    exact { hs with
      running_powered := nofun
      running_pending := nofun
      running_wait := nofun
      off_dark := fun _ => ⟨rfl, rfl, rfl, rfl, rfl, rfl⟩
      stat_pwr := rfl }
  | reset hon => exact .of_idle hon rfl (hs.stat_pwr.trans hon) hs.mem_below hs.mem_wf
  | run hon =>
    exact { hs with
      running_powered := fun _ => hon
      running_pending := fun _ => rfl
      running_wait := fun _ => rfl
      off_dark := fun hoff => by simp [hon] at hoff }
  | stop hon => exact .of_idle hon rfl (hs.stat_pwr.trans hon) hs.mem_below hs.mem_wf
  | step hon =>
    obtain ⟨hbelow, hwf⟩ := engineSlice_mem Config.engine 1 s hs.mem_below hs.mem_wf
    exact hs.of_powered hon (by simp) (by simp) (by simp) (by simp) (by simp) hbelow hwf
  | examine _ hon =>
    rw [refreshBoth_eq]
    exact hs.of_powered hon rfl rfl rfl rfl rfl hs.mem_below hs.mem_wf
  | @deposit _ _ a _ hon =>
    have hw := hs.memWrite a.toNat (switchLow s)
    rw [refreshBoth_eq]
    exact hs.of_powered hon rfl rfl rfl rfl rfl hw.mem_below hw.mem_wf
  | load =>
    exact { hs with
      mem_below := Memory.below_storeSlots _ _ _ hs.mem_below
      mem_wf := Memory.wf_storeSlots _ _ _ hs.mem_wf }
  | reply => exact { hs with }
  | memw a v => exact hs.memWrite a.toNat v
  | iow => exact { hs with }
  | emptyTick _ hidle =>
    exact { hs with running_pending := fun hr => by simp [hidle] at hr }
  | workingTick hpending hrunning =>
    obtain ⟨hbelow, hwf⟩ :=
      engineSlice_mem Config.engine (sliceCycles s) { s with tp := false } hs.mem_below hs.mem_wf
    exact hs.of_powered (hs.running_powered hrunning) (by simp [tickWork]) (by simp [tickWork])
      hpending.symm (by simp [tickWork]) (by simp [tickWork]) hbelow hwf

/-- Settles O56: each operation's effect keeps the invariants, and the environment moves nothing they speak of. -/
theorem stepKeepsTheInvariants : Obligations.StepKeepsTheInvariants :=
  fun _ _ hs => step_keeps (fun _ _ _ hs => { hs with }) (fun _ _ _ hs h => h.keeps_inv hs) hs

/-- Settles O55: construction leaves the machine off and dark, with an empty memory list. -/
theorem constructionMeetsTheInvariants : Obligations.ConstructionMeetsTheInvariants where
  running_powered := nofun
  running_pending := nofun
  off_dark _ := ⟨rfl, rfl, rfl, rfl, rfl, rfl⟩
  stat_pwr := rfl
  running_wait := nofun
  mem_below := rfl
  mem_wf := rfl

end Sys2Proof.Machine
end

section
/-! Who writes what (spec/10_state.md R20 to R28), read off the effects. -/

namespace Sys2Proof.Machine

/-- Settles O45: PWRON, PWROFF, RUN, STOP, RESET and TICK are the effects that touch a flag. -/
theorem writersOfTheFlags : Obligations.WritersOfTheFlags := by
  intro i s t h
  cases exec_effect h with
  | examine | deposit => simp +contextual [refreshBoth_eq]
  | workingTick hpending => simp +contextual [tickWork, hpending]
  | _ => simp +contextual

/-- Settles O46: EXAM, EXAMNXT, DEPNXT, PWRON and RESET are the effects that move the cursor; DEP stores where it is. -/
theorem writersOfTheCursor : Obligations.WritersOfTheCursor := by
  intro i s t h
  cases exec_effect h with
  | examine hi => rcases hi with ⟨rfl, -⟩ | ⟨rfl, -⟩ <;> simp
  | deposit hi => rcases hi with ⟨rfl, rfl⟩ | ⟨rfl, -⟩ <;> simp [refreshBoth_eq]
  | workingTick => simp [tickWork]
  | _ => simp

/-- Settles O47: the other effects that write memory are those of the named operations. -/
theorem writersOfMemory : Obligations.WritersOfMemory := by
  intro i s t h
  cases exec_effect h with
  | examine => simp [refreshBoth_eq]
  | deposit hi => rcases hi with ⟨rfl, -⟩ | ⟨rfl, -⟩ <;> simp
  | load hi => rcases hi with ⟨bs, rfl, -⟩ | ⟨tx, rfl, -⟩ <;> simp
  | step hon hidle => simp [hon, hidle]
  | workingTick hpending hrunning => simp [hpending, hrunning]
  | _ => simp

/-- Settles O48: ES is written by the engine's reset and by a slice, so by PWRON and RESET, STEP and TICK. -/
theorem writersOfTheEngineState : Obligations.WritersOfTheEngineState := by
  intro i s t h
  cases exec_effect h with
  | examine | deposit => simp [refreshBoth_eq]
  | step hon hidle => simp [hon, hidle]
  | workingTick hpending hrunning => simp [hpending, hrunning]
  | _ => simp

/-- Settles O49: a refresh shows AIND, DIND and the texts only, and an engine slice reaches OUT and no lamp. -/
theorem writersOfTheIndicators : Obligations.WritersOfTheIndicators := by
  intro i s t h
  cases exec_effect h with
  | examine | deposit => simp [refreshBoth_eq]
  | step hon hidle => simp [hon, hidle]
  | workingTick hpending hrunning => simp [tickWork, hpending, hrunning]
  | iow v => simp [wiredPort]
  | _ => simp

/-- Every operation leaves the parameters alone. -/
theorem Effect.keeps_parameters {i : Instr} {s t : State} (h : Effect i s t) :
    t.cfg = s.cfg ∧ t.clockRateHz = s.clockRateHz := by
  cases h with
  | examine | deposit => simp [refreshBoth_eq]
  | workingTick => simp [tickWork]
  | _ => simp

/-- Settles O50: the parameters are constant along operations and environment events. -/
theorem configurationNeverChanges : Obligations.ConfigurationNeverChanges := by
  intro s t h
  refine step_keeps (P := fun u => u.cfg = s.cfg ∧ u.clockRateHz = s.clockRateHz)
    (fun _ _ _ hu => hu) ?_ ⟨rfl, rfl⟩ h
  intro i u v ⟨hcfg, hrate⟩ heff
  obtain ⟨hcfg', hrate'⟩ := heff.keeps_parameters
  exact ⟨hcfg'.trans hcfg, hrate'.trans hrate⟩

/-- Settles O6, by the step's rule for a switch change. -/
theorem stepTakesASwitchChange : Obligations.StepTakesASwitchChange := by
  intro s w rest hin
  simp only [step, hin]

end Sys2Proof.Machine
end

section
/-! The latches and the trace (spec/10_state.md R28, R29; spec/40_common_procedures.md R100): every change of a
latch is an emission appended to the trace. -/

namespace Sys2Proof.Machine

/-- The last value of a trace with emissions appended is the last of those, or else the trace's own. -/
theorem lastSent_append {α : Type} (pick : Emission → Option α) (dark : α) (trace es : List Emission) :
    lastSent pick dark (trace ++ es) = lastSent pick (lastSent pick dark trace) es := by
  simp only [lastSent, List.filterMap_append, List.getLast?_append]
  cases (es.filterMap pick).getLast? <;> simp

/-- From `s` to `t` the emissions `es` were sent: the trace gained them, and each latch went with them. -/
structure Sends (es : List Emission) (s t : State) : Prop where
  trace : t.trace = s.trace ++ es
  aind : t.aind = lastSent Emission.toAind s.aind es
  dind : t.dind = lastSent Emission.toDind s.dind es
  wait : t.wait = lastSent Emission.toWait s.wait es
  stat : t.stat = lastSent Emission.toStat s.stat es
  out : t.out = lastSent Emission.toOut s.out es
  dbgCpu : t.dbgCpu = lastSent Emission.toDbgCpu s.dbgCpu es
  dbgMem : t.dbgMem = lastSent Emission.toDbgMem s.dbgMem es

/-- One batch of emissions after another. -/
theorem Sends.trans {es es' : List Emission} {s t u : State} (h : Sends es s t) (h' : Sends es' t u) :
    Sends (es ++ es') s u where
  trace := by rw [h'.trace, h.trace, List.append_assoc]
  aind := by rw [h'.aind, h.aind, lastSent_append]
  dind := by rw [h'.dind, h.dind, lastSent_append]
  wait := by rw [h'.wait, h.wait, lastSent_append]
  stat := by rw [h'.stat, h.stat, lastSent_append]
  out := by rw [h'.out, h.out, lastSent_append]
  dbgCpu := by rw [h'.dbgCpu, h.dbgCpu, lastSent_append]
  dbgMem := by rw [h'.dbgMem, h.dbgMem, lastSent_append]

/-- Latches that hold the trace's last values hold them after more emissions. -/
theorem Sends.latchesHoldTrace {es : List Emission} {s t : State} (h : Sends es s t)
    (hs : s.LatchesHoldTrace) : t.LatchesHoldTrace where
  aind := by rw [h.aind, h.trace, lastSent_append, ← hs.aind]
  dind := by rw [h.dind, h.trace, lastSent_append, ← hs.dind]
  wait := by rw [h.wait, h.trace, lastSent_append, ← hs.wait]
  stat := by rw [h.stat, h.trace, lastSent_append, ← hs.stat]
  out := by rw [h.out, h.trace, lastSent_append, ← hs.out]
  dbgCpu := by rw [h.dbgCpu, h.trace, lastSent_append, ← hs.dbgCpu]
  dbgMem := by rw [h.dbgMem, h.trace, lastSent_append, ← hs.dbgMem]

/-- A panel refresh followed by a debug refresh sends four emissions. -/
theorem refreshBoth_sends (E : Engine) (a : Addr) (s : State) :
    Sends [.aind a, .dind (memRead s a.toNat), .dbgCpu (cpuText E s), .dbgMem (memText s)] s
      (refreshDebug E (refreshPanel a s)) := by
  rw [refreshBoth_eq]
  exact ⟨rfl, rfl, rfl, rfl, rfl, rfl, rfl, rfl⟩

/-- An engine run sends what it writes to port 0xFF. -/
theorem runEngine_sends (r : Run) (s : State) : ∃ es, Sends es s (runEngine r s) := by
  obtain ⟨vs, htrace, hout⟩ := runEngine_out r s
  refine ⟨vs.map .out, htrace, ?_, ?_, ?_, ?_, ?_, ?_, ?_⟩ <;>
    simp [lastSent, List.filterMap_map, Function.comp_def, hout, Emission.toAind, Emission.toDind,
      Emission.toWait, Emission.toStat, Emission.toOut, Emission.toDbgCpu, Emission.toDbgMem]

/-- A slice sends what its run sends, then the two refreshes. -/
theorem engineSlice_sends (E : Engine) (n : Nat) (s : State) :
    ∃ es, Sends es s (refreshDebug E (refreshAfterStep E (engineStep E n s))) := by
  obtain ⟨es, hrun⟩ := runEngine_sends (E.step n s.es) s
  exact ⟨_, hrun.trans (refreshBoth_sends E _ _)⟩

/-- Every operation changes the latches by emissions only. -/
theorem Effect.sends {i : Instr} {s t : State} (h : Effect i s t) : ∃ es, Sends es s t := by
  cases h with
  | step => exact engineSlice_sends _ _ s
  | workingTick =>
    obtain ⟨es, h⟩ := engineSlice_sends Config.engine (sliceCycles s) { s with tp := false }
    exact ⟨es, { h with }⟩
  | examine => exact ⟨_, { refreshBoth_sends _ _ { s with la := _ } with }⟩
  | deposit => exact ⟨_, { refreshBoth_sends _ _ (memWrite _ _ { s with la := _ }) with }⟩
  | pwron =>
    rw [fill_frame]
    exact ⟨_, rfl, rfl, rfl, rfl, rfl, rfl, rfl, rfl⟩
  | pwroff | reset | run | stop | iow => exact ⟨_, rfl, rfl, rfl, rfl, rfl, rfl, rfl, rfl⟩
  | unchanged | load | reply | memw | emptyTick =>
    exact ⟨[], (List.append_nil _).symm, rfl, rfl, rfl, rfl, rfl, rfl, rfl⟩

/-- Settles O57: at construction the trace is empty and the latches are dark; each step sends what it changes. -/
theorem latchesHoldTheLastEmission : Obligations.LatchesHoldTheLastEmission := by
  refine ⟨⟨rfl, rfl, rfl, rfl, rfl, rfl, rfl⟩, fun s t hs => step_keeps (fun _ _ _ hu => { hu with }) ?_ hs⟩
  intro i u v hu heff
  obtain ⟨es, hsends⟩ := heff.sends
  exact hsends.latchesHoldTrace hu

/-- Settles O58: an operation appends what it sends, and the environment leaves the trace alone. -/
theorem traceOnlyGrows : Obligations.TraceOnlyGrows := by
  intro s t h
  refine step_keeps (P := fun u => ∃ es, u.trace = s.trace ++ es) (fun _ _ _ hu => hu) ?_
    ⟨[], (List.append_nil _).symm⟩ h
  intro i u v ⟨es, hu⟩ heff
  obtain ⟨es', hsends⟩ := heff.sends
  exact ⟨es ++ es', by rw [hsends.trace, hu, List.append_assoc]⟩

end Sys2Proof.Machine
end

section
/-! The Memory Store (spec/20_memory.md R50 to R54): reads and writes modulo N, and what a fill leaves. -/

namespace Sys2Proof.Machine

/-- Settles O12: the write's frame is its definition, and two addresses are aliases when their indices agree. -/
theorem memoryIsAddressedModuloN : Obligations.MemoryIsAddressedModuloN :=
  ⟨fun _ _ => rfl, fun s a v hwf => ⟨rfl, fun b => memRead_memWrite s a v b hwf⟩⟩

/-- The ZERO fill empties the memory list. -/
theorem fill_of_zero {s : State} (h : s.cfg.fillMode = .zero) : fill s = { s with mem := [] } := by
  simp only [fill, h]

/-- The RANDOM fill lists N consecutive draws. -/
theorem fill_of_random {s : State} (h : s.cfg.fillMode = .random) :
    fill s = { s with
      mem := Memory.tabulate (fun i => Config.draw (s.drawn + i)) 0 s.cfg.size
      drawn := s.drawn + s.cfg.size } := by
  simp only [fill, h]

/-- A memory that lists all N bytes of `f` reads, at any address, the byte of `f` at the reduced address. -/
theorem memRead_of_tabulate {s : State} {f : Nat → Byte} (h : s.mem = Memory.tabulate f 0 s.cfg.size)
    (a : Nat) : memRead s a = f (a % s.cfg.size) := by
  have hlt : a % s.cfg.size < s.cfg.size := memIndex_lt s a
  simp [memRead, memIndex, h, Memory.read_tabulate, hlt]

/-- Settles O22: an empty list reads 0x00 everywhere, and a tabulated one reads the draw of the reduced address. -/
theorem fillWritesEveryByte : Obligations.FillWritesEveryByte := by
  intro s
  obtain ⟨hwf, hbelow⟩ := fill_mem s
  refine ⟨fill_frame s, hwf, hbelow, fun hzero => ?_, fun hrandom => ?_⟩
  · rw [fill_of_zero hzero]
    exact ⟨fun _ => rfl, rfl⟩
  · rw [fill_of_random hrandom]
    exact ⟨memRead_of_tabulate (f := fun i => Config.draw (s.drawn + i)) rfl, rfl⟩

end Sys2Proof.Machine
end

section
/-! Requests and operations (spec/30_encoding.md R80 to R91): the decoder inverts the encoder, and the encoder reaches
every well-formed request but the bus words whose ignored bits are set. -/

namespace Sys2Proof

open Machine

/-! ### The decoder on the words the encoder builds -/

theorem decode_loadRequest (laddr : Addr) (bytes : List Byte) :
    decode (.cl (clHeader 0xB#4 laddr) (.bytes bytes)) = .ok (.load laddr bytes) := by
  rw [decode, clHeader_cmd, clHeader_laddr]
  rfl

theorem decode_loadhexRequest (laddr : Addr) (text : Text) :
    decode (.cl (clHeader 0xC#4 laddr) (.text text)) = .ok (.loadhex laddr text) := by
  rw [decode, clHeader_cmd, clHeader_laddr]
  rfl

theorem decodeBus_memrWord (addr : Addr) (data : Byte) : decodeBus (busWord 0b00#2 addr data) = .memr addr := by
  simp [decodeBus, busType_busWord, busAddr_busWord]

theorem decodeBus_memwWord (addr : Addr) (data : Byte) :
    decodeBus (busWord 0b01#2 addr data) = .memw addr data := by
  simp [decodeBus, busType_busWord, busAddr_busWord, busData_busWord]

theorem decodeBus_iorWord (addr : Addr) (data : Byte) :
    decodeBus (busWord 0b10#2 addr data) = .ior (addr.setWidth 8) := by
  simp [decodeBus, busType_busWord, busPort_busWord]

theorem decodeBus_iowWord (addr : Addr) (data : Byte) :
    decodeBus (busWord 0b11#2 addr data) = .iow (addr.setWidth 8) data := by
  simp [decodeBus, busType_busWord, busPort_busWord, busData_busWord]

/-- Settles O1: each format by the lemma on its own words, the words without an operand by evaluation. -/
theorem encodedOperationsDecodeBack : Obligations.EncodedOperationsDecodeBack := by
  intro i
  cases i with
  | load laddr bytes => exact decode_loadRequest laddr bytes
  | loadhex laddr text => exact decode_loadhexRequest laddr text
  | memr addr => exact congrArg Except.ok (decodeBus_memrWord addr 0)
  | memw addr val => exact congrArg Except.ok (decodeBus_memwWord addr val)
  | ior port => simp [encode, decode, decodeBus_iorWord]
  | iow port val => simp [encode, decode, decodeBus_iowWord]
  | pwron | pwroff | reset | run | stop | step | exam | examnxt | dep | depnxt | tick
  | reserved0 | reservedD | reservedE | reservedF => rfl

/-! ### The encoder reaches the well-formed requests -/

/-- The operations of format C: the ten panel commands and the reserved codes (30_encoding.md R81, R87). -/
def formatCOperations : List Instr :=
  [.pwron, .pwroff, .reset, .run, .stop, .step, .exam, .examnxt, .dep, .depnxt,
    .reserved0, .reservedD, .reservedE, .reservedF]

/-- Every code that is not a loader's is the code of an operation. -/
theorem exists_encode_formatC :
    ∀ cmd : BitVec 4, isLoaderCode cmd = false → ∃ i ∈ formatCOperations, encode i = .c cmd := by
  decide

/-- The encoder reaches every well-formed request from outside the controller. -/
theorem exists_encode_of_wellFormed {r : Request} (hwf : r.wellFormed = true) (hout : r.fromEngine = false) :
    ∃ i, encode i = r := by
  cases r with
  | c cmd =>
    obtain ⟨i, -, hi⟩ := exists_encode_formatC cmd (by simpa [Request.wellFormed] using hwf)
    exact ⟨i, hi⟩
  | cl header payload =>
    cases payload with
    | absent => cases hwf
    | bytes bs =>
      have hcmd : header.extractLsb' 16 4 = 0xB#4 := eq_of_beq hwf
      exact ⟨.load (header.extractLsb' 0 16) bs, by rw [encode, ← hcmd, clHeader_fields]⟩
    | text tx =>
      have hcmd : header.extractLsb' 16 4 = 0xC#4 := eq_of_beq hwf
      exact ⟨.loadhex (header.extractLsb' 0 16) tx, by rw [encode, ← hcmd, clHeader_fields]⟩
  | b word => cases hout
  | t req =>
    have hreq : req = 1#1 := eq_of_beq hwf
    exact ⟨.tick, by rw [encode, hreq]⟩

/-- An operation is encoded as a bus word exactly when it is a bus transaction. -/
theorem encode_fromEngine (i : Instr) : (encode i).fromEngine = i.isBus := by cases i <;> rfl

/-- A bus word stands for a bus transaction, whatever its type field. -/
theorem decodeBus_isBus (word : BitVec 26) : (decodeBus word).isBus = true := by
  unfold decodeBus
  split <;> rfl

/-- Settles O2: a bus word by the decoder's own answer, every other request as the encoding of an operation (O1). -/
theorem wellFormedRequestsDecode : Obligations.WellFormedRequestsDecode := by
  intro r hwf
  cases hout : r.fromEngine with
  | true =>
    cases r with
    | b word => exact ⟨decodeBus word, rfl, nofun, decodeBus_isBus word⟩
    | c | cl | t => cases hout
  | false =>
    obtain ⟨i, rfl⟩ := exists_encode_of_wellFormed hwf hout
    exact ⟨i, encodedOperationsDecodeBack i, fun _ => rfl, (encode_fromEngine i).symm.trans hout⟩

/-! ### The decode procedure on the spec's words -/

/-- Settles O3: the loaders and the bus words by the lemma on each word, the port being the address field's low half. -/
theorem decodeProcedure : Obligations.DecodeProcedure := by
  refine ⟨⟨rfl, rfl, rfl, rfl, rfl, rfl, rfl, rfl, rfl, rfl, rfl, rfl, rfl, rfl⟩,
    fun laddr bytes text => ⟨decode_loadRequest laddr bytes, decode_loadhexRequest laddr text⟩,
    fun hi lo data => ?_⟩
  have hport : (hi ++ lo).setWidth 8 = lo := BitVec.setWidth_append_eq_right
  exact ⟨congrArg Except.ok (decodeBus_memrWord (hi ++ lo) data),
    congrArg Except.ok (decodeBus_memwWord (hi ++ lo) data),
    congrArg Except.ok ((decodeBus_iorWord (hi ++ lo) data).trans (congrArg Instr.ior hport)),
    congrArg Except.ok ((decodeBus_iowWord (hi ++ lo) data).trans (congrArg (Instr.iow · data) hport))⟩

/-- Settles O4, by running the decoder on each word. -/
theorem specWordsDecode : Obligations.SpecWordsDecode :=
  ⟨rfl, rfl, rfl, rfl, rfl, rfl, rfl, rfl, rfl, rfl⟩

/-! ### Requests without an effect -/

/-- What the decoder rejects is none of the four formats. -/
theorem not_wellFormed_of_decode_error {r : Request} {why : DecodeError} (hdec : decode r = .error why) :
    r.wellFormed = false := by
  by_contra hwf
  obtain ⟨i, hi, -, -⟩ := wellFormedRequestsDecode r (Bool.eq_true_of_not_eq_false hwf)
  cases hdec.symm.trans hi

/-- Settles O8: the step passes the decoder's reason on, and a well-formed request decodes (O2). -/
theorem stepRefusesAMalformedRequest : Obligations.StepRefusesAMalformedRequest := by
  intro s r rest why hin hdec
  exact ⟨by simp only [Machine.step, hin, hdec], not_wellFormed_of_decode_error hdec⟩

/-- Settles O9: a reserved code's meaning is to ignore the command. -/
theorem reservedCodesAreIgnored : Obligations.ReservedCodesAreIgnored :=
  ⟨rfl, rfl, rfl, rfl, fun _ => ⟨rfl, rfl, rfl, rfl⟩⟩

end Sys2Proof
end

section
/-! LOADHEX as a sequence of one-byte LOADs (spec/30_encoding.md R90): both loaders are one gated load of slots, which
takes its slots one at a time. -/

namespace Sys2Proof.Machine

/-- The load of `slots` behind the power gate, from a natural address: a token's address may pass 65535. -/
def gatedLoad (a : Nat) (slots : List (Option Byte)) : State → State :=
  whenPowered fun s => { s with mem := Memory.storeSlots s.cfg.size a slots s.mem }

/-- LOAD is the gated load of its bytes. -/
theorem exec_load (laddr : Addr) (bytes : List Byte) (s : State) :
    exec (.load laddr bytes) s = .next (gatedLoad laddr.toNat (bytes.map some) s) := rfl

/-- LOADHEX is the gated load of its tokens' slots. -/
theorem exec_loadhex (laddr : Addr) (text : Text) (s : State) :
    exec (.loadhex laddr text) s = .next (gatedLoad laddr.toNat ((tokens text).map tokenByte) s) := rfl

theorem gatedLoad_nil (a : Nat) (s : State) : gatedLoad a [] s = s := by
  simp [gatedLoad, whenPowered, Memory.storeSlots]

/-- A slot without a byte is left alone. -/
theorem gatedLoad_none (a : Nat) (slots : List (Option Byte)) : gatedLoad a (none :: slots) = gatedLoad (a + 1) slots :=
  rfl

/-- A slot with a byte is a load of its own, before the others. -/
theorem gatedLoad_some (a : Nat) (v : Byte) (slots : List (Option Byte)) (s : State) :
    gatedLoad a (some v :: slots) s = gatedLoad (a + 1) slots (gatedLoad a [some v] s) := by
  cases hpwr : s.pwr <;> simp [gatedLoad, whenPowered, hpwr, Memory.storeSlots]

/-- A byte past the end of memory is dropped. -/
theorem gatedLoad_past (v : Byte) {a : Nat} {s : State} (ha : s.cfg.size ≤ a) : gatedLoad a [some v] s = s := by
  simp [gatedLoad, whenPowered, Memory.storeSlots, Nat.not_lt.mpr ha]

/-- The one-byte LOADs of the tokens from address `a` on are the gated load of their slots. -/
theorem oneByteLoads_eq (a : Nat) (ts : List Text) (s : State) :
    oneByteLoads a ts s = .next (gatedLoad a (ts.map tokenByte) s) := by
  induction ts generalizing a s with
  | nil => rw [List.map_nil, gatedLoad_nil, oneByteLoads]
  | cons t ts ih =>
    rw [List.map_cons, oneByteLoads]
    cases tokenByte t with
    | none => rw [gatedLoad_none]; exact ih (a + 1) s
    | some v =>
      rw [gatedLoad_some]
      by_cases ha : a < 65536
      · have hone : exec (.load (BitVec.ofNat 16 a) [v]) s = .next (gatedLoad a [some v] s) := by
          rw [exec_load, BitVec.toNat_ofNat, Nat.mod_eq_of_lt ha]
          rfl
        simp only [if_pos ha, hone, ih]
      · have hpast : s.cfg.size ≤ a := (Cfg.size_le s.cfg).trans (Nat.not_lt.mp ha)
        simp only [if_neg ha, gatedLoad_past v hpast, ih]

/-- Settles O36: LOADHEX and its one-byte LOADs are the same gated load. -/
theorem loadhexIsASequenceOfLoads : Obligations.LoadhexIsASequenceOfLoads :=
  fun s address text => (exec_loadhex address text s).trans (oneByteLoads_eq address.toNat (tokens text) s).symm

end Sys2Proof.Machine
end

section
/-! The engine step as bus operations (spec/40_common_procedures.md R104): carrying out a run transaction by
transaction is the machine's own loop. -/

namespace Sys2Proof.Machine

/-! ### What the four bus operations answer (spec/41_bus_adapter.md R120 to R123) -/

theorem exec_memr (addr : Addr) (s : State) : exec (.memr addr) s = .next (busMemr addr s) := rfl

theorem exec_memw (addr : Addr) (val : Byte) (s : State) : exec (.memw addr val) s = .next (busMemw addr val s) := rfl

theorem exec_ior (port : Byte) (s : State) : exec (.ior port) s = .next (busIor port s) := rfl

theorem exec_iow (port val : Byte) (s : State) : exec (.iow port val) s = .next (busIow port val s) := rfl

/-! ### The run -/

/-- The machine's loop carries out the run. -/
theorem busRun_runEngine (r : Run) (s : State) : BusRun r s (runEngine r s) := by
  induction r generalizing s with
  | done es => exact .done es s
  | memr addr k ih => exact .memr (exec_memr addr s) (busMemr_reply s addr) (ih _ _)
  | memw addr val k ih => exact .memw (exec_memw addr val s) (ih _)
  | ior port k ih => exact .ior (exec_ior port s) (busIor_reply s port) (ih _ _)
  | iow port val k ih => exact .iow (exec_iow port val s) (ih _)

/-- However the run is carried out, it ends where the machine's loop ends: each transaction has one outcome and a read
one answer. -/
theorem BusRun.eq_runEngine {r : Run} {s t : State} (h : BusRun r s t) : t = runEngine r s := by
  induction h with
  | done => rfl
  | memr hexec hreply _ ih =>
    cases hexec
    cases hreply
    exact ih
  | memw hexec _ ih =>
    cases hexec
    exact ih
  | ior hexec hreply _ ih =>
    cases hexec
    cases hreply
    exact ih
  | iow hexec _ ih =>
    cases hexec
    exact ih

/-- Settles O18: the one state is the one in which the machine's loop ends. -/
theorem busRunEndsInOneState : Obligations.BusRunEndsInOneState :=
  fun r s => ⟨runEngine r s, busRun_runEngine r s, fun _ h => h.eq_runEngine⟩

end Sys2Proof.Machine
end

section
/-! The CPU text (spec/40_common_procedures.md R107, R109): its numerals, the conforming format, and the formats
R107 admits. -/

namespace Sys2Proof.Machine

/-! ### Numerals -/

theorem hexDigit_lower (d : BitVec 4) : hexDigit false d = "0123456789abcdef".toList.getD d.toNat '?' := by
  revert d
  decide

/-- The numeral of a byte, by quotient and remainder. -/
theorem hex2_lower (v : Byte) :
    hex2 false v =
      ["0123456789abcdef".toList.getD (v.toNat / 16) '?', "0123456789abcdef".toList.getD (v.toNat % 16) '?'] := by
  have hhi : (v.extractLsb' 4 4).toNat = v.toNat / 16 := by
    rw [BitVec.extractLsb'_toNat, Nat.shiftRight_eq_div_pow]
    omega
  have hlo : (v.extractLsb' 0 4).toNat = v.toNat % 16 := BitVec.extractLsb'_toNat 0 4 v
  rw [hex2_eq, hexDigit_lower, hexDigit_lower, hhi, hlo]

/-- The numeral of a 16-bit value is that of its high byte, then that of its low byte. -/
theorem hex4_lower (v : Addr) :
    hex4 false v =
      ["0123456789abcdef".toList.getD (v.toNat / 4096) '?', "0123456789abcdef".toList.getD (v.toNat / 256 % 16) '?',
       "0123456789abcdef".toList.getD (v.toNat / 16 % 16) '?', "0123456789abcdef".toList.getD (v.toNat % 16) '?'] := by
  have hhi : (v.extractLsb' 8 8).toNat = v.toNat / 256 := by
    rw [BitVec.extractLsb'_toNat, Nat.shiftRight_eq_div_pow]
    omega
  have hlo : (v.extractLsb' 0 8).toNat = v.toNat % 256 := BitVec.extractLsb'_toNat 0 8 v
  rw [hex4_eq, hex2_lower, hex2_lower, hhi, hlo, Nat.div_div_eq_div_mul, List.cons_append, List.cons_append,
    List.nil_append, show v.toNat % 256 / 16 = v.toNat / 16 % 16 by omega,
    show v.toNat % 256 % 16 = v.toNat % 16 by omega]

/-- Settles O39: each digit of a numeral is the digit of its four bits, and those are a quotient and remainder by 16. -/
theorem hexNumerals : Obligations.HexNumerals := ⟨hex2_lower, hex4_lower⟩

/-! ### The conforming format -/

/-- After the register line the conforming format prints each set flag's name after a space, in bit order. -/
theorem append_flagNames_conforming (line : Text) (f : Byte) :
    line ++ flagNames conformingCpuStyle f =
      line ++ (if f.getLsbD 7 then " SIGN".toList else []) ++ (if f.getLsbD 6 then " ZERO".toList else [])
        ++ (if f.getLsbD 4 then " AC".toList else []) ++ (if f.getLsbD 2 then " PARITY".toList else [])
        ++ (if f.getLsbD 0 then " CARRY".toList else []) := by
  have horder : flagSequence conformingCpuStyle.flagOrder = [.sign, .zero, .ac, .parity, .carry] := by decide
  simp only [flagNames, horder, List.map_cons, List.map_nil, List.flatten_cons, List.flatten_nil, List.append_nil,
    List.append_assoc]
  rfl

/-- Settles O40: the conforming style's register line and flag names, with nothing after them. -/
theorem conformingCpuText : Obligations.ConformingCpuText := by
  intro r
  have htext : fmtCpu conformingCpuFormat r =
      regLine conformingLabels (regNumerals (fun _ => false) r) ++ flagNames conformingCpuStyle r.f ++ [] := rfl
  rw [htext, List.append_nil, append_flagNames_conforming]
  rfl

/-! ### The formats R107 admits -/

/-- Leads paired with distinct flags are those of one function of the flag. -/
theorem exists_flagLead {names : List (Text × EngineFlag)} (h : (names.map Prod.snd).Nodup) :
    ∃ lead : EngineFlag → Text, ∀ p ∈ names, lead p.2 = p.1 := by
  have hinj : Set.InjOn Prod.snd {p | p ∈ names} := List.inj_on_of_nodup_map h
  exact ⟨fun x => (Function.invFunOn Prod.snd {p | p ∈ names} x).1,
    fun p hp => congrArg Prod.fst (hinj.leftInvOn_invFunOn hp)⟩

/-- The set flags in the order in which the style `st` prints them. -/
def shownFlags (st : CpuStyle) (f : Byte) : List EngineFlag :=
  (flagSequence st.flagOrder).filter fun x => f.getLsbD x.bit

theorem mem_shownFlags (st : CpuStyle) (f : Byte) (x : EngineFlag) :
    x ∈ shownFlags st f ↔ f.getLsbD x.bit = true := by
  rw [shownFlags, List.mem_filter, and_iff_right (mem_flagSequence st.flagOrder x)]

theorem shownFlags_nodup (st : CpuStyle) (f : Byte) : (shownFlags st f).Nodup :=
  (flagSequence_nodup st.flagOrder).filter _

theorem flagNames_eq_shownFlags (st : CpuStyle) (f : Byte) :
    flagNames st f = (shownFlags st f).flatMap fun x => st.flagLead x ++ x.label :=
  flagNames_eq st f

/-- The texts of one register value that R107 asks for are its texts in the styles. -/
theorem cpuTextShows_iff (r : Regs) (t : Text) : CpuTextShows r t ↔ ∃ st, cpuTextIn st r = t := by
  constructor
  · intro ⟨labels, numerals, names, tail, hnum, hnodup, hset, ht⟩
    obtain ⟨upper, rfl⟩ := exists_regNumerals hnum
    obtain ⟨lead, hlead⟩ := exists_flagLead hnodup
    have hnames : flagNames ⟨upper, labels, names.map Prod.snd, lead, tail⟩ r.f =
        names.flatMap fun p => p.1 ++ p.2.label := by
      rw [flagNames_eq, filter_flagSequence hnodup hset, List.flatMap_map]
      exact List.flatMap_congr fun p hp => congrArg (· ++ p.2.label) (hlead p hp)
    exact ⟨⟨upper, labels, names.map Prod.snd, lead, tail⟩, by rw [ht, cpuTextIn_mk, hnames]⟩
  · rintro ⟨st, rfl⟩
    have hsnd : ((shownFlags st r.f).map fun x => (st.flagLead x, x)).map Prod.snd = shownFlags st r.f := by
      rw [List.map_map]
      exact List.map_id _
    refine ⟨st.labels, regNumerals st.upper r, (shownFlags st r.f).map fun x => (st.flagLead x, x), st.tail,
      regNumerals_areNumerals st.upper r, ?_, fun x => ?_, ?_⟩
    · rw [hsnd]
      exact shownFlags_nodup st r.f
    · rw [hsnd]
      exact mem_shownFlags st r.f x
    · rw [List.flatMap_map, cpuTextIn, flagNames_eq_shownFlags]

/-- Settles O41: a format is a choice of a style for each register value. -/
theorem cpuFormatsAreAllOfThem : Obligations.CpuFormatsAreAllOfThem := by
  intro f
  simp only [cpuTextShows_iff]
  exact (Classical.skolem (p := fun r st => cpuTextIn st r = f r)).symm

end Sys2Proof.Machine
end

section
/-! The memory text (spec/40_common_procedures.md R108): the formats R108 admits, and the conforming format. -/

namespace Sys2Proof.Machine

/-! ### The formats R108 admits -/

/-- A text in a style is its full rows, 16 bytes each, and the style's tail. -/
theorem memTextIn_eq_fullRows (st : MemStyle) (n : Nat) (byteAt : Nat → Byte) :
    memTextIn st n byteAt = ((List.range (n / 16)).flatMap fun r =>
      hex4At (st.upper r) 0 (BitVec.ofNat 16 (16 * r)) ++ st.gap r ++
        ((List.range 16).flatMap fun j => byteSep j ++ hex2At (st.upper r) (4 + 2 * j) (byteAt (16 * r + j))) ++
        st.after r) ++ st.tail := by
  rw [memTextIn, ← List.flatMap_def]
  congr 1
  refine List.flatMap_congr fun r hr => ?_
  have hfull : min 16 (n - 16 * r) = 16 := by
    have := List.mem_range.mp hr
    omega
  rw [memRow, hfull, ← List.flatMap_def]

/-- The cases of the digits of the full rows whose numerals are the texts `addr r` and `byte i`. -/
def rowCases (addr byte : Nat → Text) (r k : Nat) : Bool :=
  if k < 4 then ((addr r).getD k ' ').isUpper
  else ((byte (16 * r + (k - 4) / 2)).getD ((k - 4) % 2) ' ').isUpper

theorem hex4At_rowCases {addr byte : Nat → Text} {r : Nat} {v : Addr} (h : IsNumeral (hex4 false v) (addr r)) :
    hex4At (rowCases addr byte r) 0 v = addr r :=
  hex4At_of_isNumeral h fun i hi => by rw [rowCases, Nat.zero_add, if_pos hi]

theorem hex2At_rowCases {addr byte : Nat → Text} {r j : Nat} {v : Byte}
    (h : IsNumeral (hex2 false v) (byte (16 * r + j))) :
    hex2At (rowCases addr byte r) (4 + 2 * j) v = byte (16 * r + j) :=
  hex2At_of_isNumeral h fun i hi => by
    rw [rowCases, if_neg (by omega), show (4 + 2 * j + i - 4) / 2 = j by omega,
      show (4 + 2 * j + i - 4) % 2 = i by omega]

/-- The texts of one memory that R108 asks for are its texts in the styles. -/
theorem memTextShows_iff (bytes : List Byte) (t : Text) :
    MemTextShows bytes t ↔ ∃ st, memTextIn st bytes.length (bytes.getD · 0x00#8) = t := by
  constructor
  · rintro ⟨addr, gap, after, byte, tail, haddr, hbyte, rfl⟩
    refine ⟨⟨rowCases addr byte, gap, after, tail⟩, ?_⟩
    simp only [memTextIn_eq_fullRows, hex4At_rowCases (haddr _), hex2At_rowCases (hbyte _)]
  · rintro ⟨st, rfl⟩
    refine ⟨fun r => hex4At (st.upper r) 0 (BitVec.ofNat 16 (16 * r)), st.gap, st.after,
      fun i => hex2At (st.upper (i / 16)) (4 + 2 * (i % 16)) (bytes.getD i 0x00#8), st.tail,
      fun r => hex4At_isNumeral _ _ _, fun i => hex2At_isNumeral _ _ _, ?_⟩
    rw [memTextIn_eq_fullRows]
    congr 1
    refine List.flatMap_congr fun r _ => ?_
    congr 2
    refine List.flatMap_congr fun j hj => ?_
    have hj16 := List.mem_range.mp hj
    beta_reduce
    rw [show (16 * r + j) / 16 = r by omega, show (16 * r + j) % 16 = j by omega]

/-- Settles O42: a format is a choice of a style for each memory. -/
theorem memFormatsAreAllOfThem : Obligations.MemFormatsAreAllOfThem := by
  intro f
  simp only [fmtMem_bytes, memTextShows_iff]
  exact (Classical.skolem (p := fun bytes st => memTextIn st bytes.length (bytes.getD · 0x00#8) = f bytes)).symm

/-! ### The conforming format -/

/-- Joining with a separator puts it after every part but the last. -/
theorem intercalate_append_singleton {α : Type} (sep : List α) (xs : List (List α)) (y : List α) :
    sep.intercalate (xs ++ [y]) = (xs.flatMap fun x => x ++ sep) ++ y := by
  induction xs with
  | nil => exact List.intercalate_singleton
  | cons x xs ih =>
    cases xs with
    | nil => simp
    | cons x' xs => simpa using ih

/-- A row of the conforming format. -/
theorem memRow_conforming (n : Nat) (byteAt : Nat → Byte) (r : Nat) :
    memRow (conformingMemStyle n) n byteAt r =
      hex4 false (BitVec.ofNat 16 (16 * r)) ++ [' ']
        ++ ((List.range (min 16 (n - 16 * r))).map fun j => byteSep j ++ hex2 false (byteAt (16 * r + j))).flatten :=
  rfl

/-- The conforming text is its full rows, a line feed after each that is not the last row, then the short row. -/
theorem fmtMem_conforming (n : Nat) (byteAt : Nat → Byte) :
    fmtMem conformingMemFormat n byteAt =
      ((List.range (n / 16)).flatMap fun r =>
        memRow (conformingMemStyle n) n byteAt r ++ if 16 * (r + 1) < n then ['\n'] else [])
      ++ if n % 16 = 0 then [] else memRow (conformingMemStyle n) n byteAt (n / 16) := by
  have hlen : ((List.range n).map byteAt).length = n := by simp
  have hbytes : ∀ i, i < n → ((List.range n).map byteAt).getD i 0x00#8 = byteAt i := fun i hi => by simp [hi]
  rw [fmtMem, conformingMemFormat, hlen, memRow_congr hbytes, List.flatMap_def]
  rfl

/-- Every row before a row of the memory is followed by a line feed. -/
theorem rowsBefore_conforming {n k : Nat} (hk : 16 * k < n) (row : Nat → Text) :
    ((List.range k).flatMap fun r => row r ++ if 16 * (r + 1) < n then ['\n'] else []) =
      (List.range k).flatMap fun r => row r ++ ['\n'] :=
  List.flatMap_congr fun r hr => by
    have := List.mem_range.mp hr
    rw [if_pos (by omega)]

/-- Settles O43: the rows before the last, `k`, have a line feed each; the last row ends the text, be it a full row or
the short one. -/
theorem conformingMemText : Obligations.ConformingMemText := by
  intro n byteAt
  simp only [← memRow_conforming, fmtMem_conforming]
  rcases Nat.eq_zero_or_pos n with rfl | hpos
  · rfl
  obtain ⟨k, hk, hrows⟩ : ∃ k, 16 * k < n ∧ (n + 15) / 16 = k + 1 := ⟨(n - 1) / 16, by omega, by omega⟩
  rw [hrows, List.range_succ, List.map_append, List.map_singleton, intercalate_append_singleton, List.flatMap_map,
    ← rowsBefore_conforming hk]
  by_cases hfull : n % 16 = 0
  · have hlast : ¬ 16 * (k + 1) < n := by omega
    rw [if_pos hfull, show n / 16 = k + 1 by omega, List.range_succ, List.flatMap_append, List.flatMap_singleton,
      if_neg hlast, List.append_nil, List.append_nil]
  · rw [if_neg hfull, show n / 16 = k by omega]

/-! ### A row's tokens (spec/44_bulk_load.md R163) -/

/-- The characters of a token are read up to the next whitespace. -/
theorem tokensFrom_append {t : Text} (ht : ∀ c ∈ t, isWhitespace c = false) (cur text : Text) :
    tokensFrom cur (t ++ text) = tokensFrom (cur ++ t) text := by
  induction t generalizing cur with
  | nil => rw [List.nil_append, List.append_nil]
  | cons c t ih =>
    rw [List.forall_mem_cons] at ht
    rw [List.cons_append, tokensFrom, ht.1, if_neg Bool.false_ne_true, ih ht.2, List.append_assoc,
      List.singleton_append]

/-- A maximal run of non-whitespace characters, as R163 has it. -/
structure IsToken (t : Text) : Prop where
  ne_nil : t ≠ []
  no_whitespace : ∀ c ∈ t, isWhitespace c = false

theorem IsToken.tokens_self {t : Text} (ht : IsToken t) : tokens t = [t] := by
  have h := tokensFrom_append ht.no_whitespace [] []
  rwa [List.append_nil, List.nil_append, tokensFrom, if_neg ht.ne_nil] at h

theorem IsToken.tokens_append_cons {t : Text} (ht : IsToken t) {w : Char} (hw : isWhitespace w = true) (text : Text) :
    tokens (t ++ w :: text) = t :: tokens text := by
  rw [tokens, tokensFrom_append ht.no_whitespace, List.nil_append, tokensFrom, if_pos hw, if_neg ht.ne_nil, tokens]

theorem tokens_whitespace_cons {w : Char} (hw : isWhitespace w = true) (text : Text) :
    tokens (w :: text) = tokens text := by
  rw [tokens, tokensFrom, if_pos hw, if_pos rfl, tokens]

theorem isWhitespace_space : isWhitespace ' ' = true := rfl

@[simp] theorem hexDigit_not_whitespace (upper : Bool) (d : BitVec 4) : isWhitespace (hexDigit upper d) = false := by
  revert upper d
  decide

theorem isToken_hex2 (upper : Bool) (v : Byte) : IsToken (hex2 upper v) := ⟨nofun, by simp [hex2_eq]⟩

theorem isToken_hex4 (upper : Bool) (v : Addr) : IsToken (hex4 upper v) := ⟨nofun, by simp [hex4_eq, hex2_eq]⟩

/-- What separates a byte of a row from the one before it ends a token, whether it is one space or two. -/
theorem IsToken.tokens_append_byteSep {t : Text} (ht : IsToken t) (j : Nat) (text : Text) :
    tokens (t ++ (byteSep (j + 1) ++ text)) = t :: tokens text := by
  rw [byteSep, if_neg (Nat.succ_ne_zero j)]
  split
  · have htwo := ht.tokens_append_cons isWhitespace_space (' ' :: text)
    rwa [tokens_whitespace_cons isWhitespace_space] at htwo
  · exact ht.tokens_append_cons isWhitespace_space text

/-- Tokens set apart as the bytes of a row are, after a first one. -/
theorem tokens_separated {t : Text} (ht : IsToken t) {word : Nat → Text} (hword : ∀ j, IsToken (word j))
    (js : List Nat) :
    tokens (t ++ js.flatMap fun j => byteSep (j + 1) ++ word j) = t :: js.map word := by
  induction js generalizing t with
  | nil => rw [List.flatMap_nil, List.append_nil, ht.tokens_self, List.map_nil]
  | cons j js ih => rw [List.flatMap_cons, List.append_assoc, ht.tokens_append_byteSep, ih (hword j), List.map_cons]

/-- Settles O44: the address is cut off by the gap, and the row, which has a first byte, by its separators. -/
theorem memoryRowShowsItsBytes : Obligations.MemoryRowShowsItsBytes := by
  intro n r byteAt hr
  obtain ⟨m, hm⟩ : ∃ m, min 16 (n - 16 * r) = m + 1 := ⟨min 16 (n - 16 * r) - 1, by omega⟩
  have hbytes := tokens_separated (isToken_hex2 false (byteAt (16 * r)))
    (fun j => isToken_hex2 false (byteAt (16 * r + (j + 1)))) (List.range m)
  rw [List.flatMap_def] at hbytes
  rw [memRow_conforming, hm, List.append_assoc, List.singleton_append,
    (isToken_hex4 _ _).tokens_append_cons isWhitespace_space, List.range_succ_eq_map, List.map_cons, List.map_cons,
    List.map_map, List.map_map, List.flatten_cons]
  exact congrArg _ hbytes

end Sys2Proof.Machine
end

section
/-! The Bus Adapter (spec/41_bus_adapter.md R120 to R125): what the four transactions answer and change, and that an
engine sees nothing of the cursor and of the switch word's low byte. -/

namespace Sys2Proof.Machine

/-! ### Memory transactions -/

/-- Settles O14: the memory write of R52 at the decoded address. -/
theorem memwWritesOneByteAndItsAliases : Obligations.MemwWritesOneByteAndItsAliases := by
  intro s addr val hwf
  obtain ⟨hframe, hbytes⟩ := memoryIsAddressedModuloN.2 s addr.toNat val hwf
  exact ⟨congrArg Except.ok (decodeBus_memwWord addr val), busMemw addr val s, exec_memw addr val s, hframe, hbytes⟩

/-- Settles O13: the reply is the byte at the reduced address. -/
theorem memrAnswersTheReducedAddress : Obligations.MemrAnswersTheReducedAddress := fun s addr data =>
  ⟨congrArg Except.ok (decodeBus_memrWord addr data), exec_memr addr s⟩

/-! ### Port transactions -/

/-- R122 as one condition: the port is the wired one and a switch source is present. -/
theorem portRead_eq (s : State) (port : Byte) :
    portRead s port = if port = wiredPort ∧ s.cfg.swPresent = true then s.sw.extractLsb' 8 8 else 0x00#8 := by
  by_cases hport : port = wiredPort
  · cases hsource : s.cfg.swPresent <;> simp [portRead, switchHigh, switchWord, hport, hsource]
  · simp [portRead, hport]

/-- Writing a port leaves what every port reads: OUT and the trace are all that it changes. -/
@[simp] theorem portRead_busIow (s : State) (port val port' : Byte) :
    portRead (busIow port val s) port' = portRead s port' := by
  rcases busIow_cases port val s with ⟨-, h⟩ | ⟨-, h⟩ <;> rw [h]
  rfl

/-- Settles O15: the word's port by the decode procedure (O3), the reply by what the port reads. -/
theorem iorAnswersTheSwitchHighByte : Obligations.IorAnswersTheSwitchHighByte := by
  intro s hi port data
  obtain ⟨-, -, hdec, -⟩ := decodeProcedure.2.2 hi port data
  exact ⟨hdec, by rw [exec_ior, busIor, portRead_eq, wiredPort]⟩

/-- Settles O16: the word's port by the decode procedure (O3), the effect by whether the port is the wired one. -/
theorem iowDrivesTheOutputIndicator : Obligations.IowDrivesTheOutputIndicator := by
  intro s hi port val
  obtain ⟨-, -, -, hdec⟩ := decodeProcedure.2.2 hi port val
  exact ⟨hdec, exec_iow port val s, rfl⟩

/-- Settles O17: the answer is what the port reads, which a port write leaves. -/
theorem portHalvesAreIndependent : Obligations.PortHalvesAreIndependent := fun s port port' val =>
  ⟨_, _, _, exec_iow port val s, exec_ior port' _, exec_ior port' s,
    congrArg some (portRead_busIow s port val port')⟩

/-! ### What an engine step does not read

The two parts of the state that the engine's slices never write, the cursor and the switch word, are changed by `f` and
`g`; when `g` keeps the switch word's upper byte, STEP and TICK commute with the change. -/

/-- `s` with the cursor changed by `f` and the switch word by `g`. -/
def mapCursorSwitches (f g : Addr → Addr) (s : State) : State := { s with la := f s.la, sw := g s.sw }

section MapCursorSwitches

variable {f g : Addr → Addr} {s : State}

/-- A port reads the upper byte of the switch word only. -/
theorem portRead_mapCursorSwitches (hg : (g s.sw).extractLsb' 8 8 = s.sw.extractLsb' 8 8) (port : Byte) :
    portRead (mapCursorSwitches f g s) port = portRead s port := by
  simp only [portRead_eq, mapCursorSwitches, hg]

theorem busIow_mapCursorSwitches (port val : Byte) :
    busIow port val (mapCursorSwitches f g s) = mapCursorSwitches f g (busIow port val s) := by
  rw [busIow, busIow, apply_ite (mapCursorSwitches f g)]
  rfl

theorem runEngine_mapCursorSwitches (r : Run) (hg : (g s.sw).extractLsb' 8 8 = s.sw.extractLsb' 8 8) :
    runEngine r (mapCursorSwitches f g s) = mapCursorSwitches f g (runEngine r s) := by
  induction r generalizing s with
  | done es => rfl
  | memr addr k ih => exact ih _ (s := busMemr addr s) hg
  | memw addr val k ih => exact ih (s := busMemw addr val s) hg
  | ior port k ih =>
    rw [runEngine, busIor, portRead_mapCursorSwitches hg]
    exact ih _ (s := busIor port s) hg
  | iow port val k ih =>
    have hsw : (busIow port val s).sw = s.sw := by
      rcases busIow_cases port val s with ⟨-, h⟩ | ⟨-, h⟩ <;> rw [h]
    rw [runEngine, busIow_mapCursorSwitches, ih (by rw [hsw, hg]), runEngine]

/-- The refreshes after a slice show the engine's own pc. -/
theorem refreshes_mapCursorSwitches (E : Engine) :
    refreshDebug E (refreshAfterStep E (mapCursorSwitches f g s)) =
      mapCursorSwitches f g (refreshDebug E (refreshAfterStep E s)) := by
  rw [refreshAfterStep, refreshAfterStep, refreshBoth_eq, refreshBoth_eq]
  rfl

/-- The slice of a STEP or a TICK: the run, then the two refreshes. -/
theorem engineSlice_mapCursorSwitches (E : Engine) (n : Nat)
    (hg : (g s.sw).extractLsb' 8 8 = s.sw.extractLsb' 8 8) :
    refreshDebug E (refreshAfterStep E (engineStep E n (mapCursorSwitches f g s))) =
      mapCursorSwitches f g (refreshDebug E (refreshAfterStep E (engineStep E n s))) := by
  have hrun : engineStep E n (mapCursorSwitches f g s) = mapCursorSwitches f g (engineStep E n s) :=
    runEngine_mapCursorSwitches (E.step n s.es) hg
  rw [hrun, refreshes_mapCursorSwitches]

theorem panelStep_mapCursorSwitches (E : Engine) (hg : (g s.sw).extractLsb' 8 8 = s.sw.extractLsb' 8 8) :
    panelStep E (mapCursorSwitches f g s) = mapCursorSwitches f g (panelStep E s) := by
  simp only [panelStep, whenPowered, apply_ite (mapCursorSwitches f g), ← engineSlice_mapCursorSwitches E 1 hg]
  rfl

theorem tickWork_mapCursorSwitches (E : Engine) (hg : (g s.sw).extractLsb' 8 8 = s.sw.extractLsb' 8 8) :
    tickWork E (mapCursorSwitches f g s) = mapCursorSwitches f g (tickWork E s) :=
  congrArg (fun u : State => { u with tp := true }) (engineSlice_mapCursorSwitches E (sliceCycles s) hg)

theorem schedulerTick_mapCursorSwitches (E : Engine) (hg : (g s.sw).extractLsb' 8 8 = s.sw.extractLsb' 8 8) :
    schedulerTick E (mapCursorSwitches f g s) = mapCursorSwitches f g (schedulerTick E s) := by
  simp only [schedulerTick, apply_ite (mapCursorSwitches f g),
    ← tickWork_mapCursorSwitches (s := { s with tp := false }) E hg]
  rfl

/-- STEP and TICK commute with the change, the switches' upper byte being kept. -/
theorem exec_mapCursorSwitches {i : Instr} (hi : i = .step ∨ i = .tick)
    (hg : (g s.sw).extractLsb' 8 8 = s.sw.extractLsb' 8 8) :
    ∃ t, exec i s = .next t ∧ exec i (mapCursorSwitches f g s) = .next (mapCursorSwitches f g t) := by
  rcases hi with rfl | rfl
  · exact ⟨_, rfl, congrArg _ (panelStep_mapCursorSwitches Config.engine hg)⟩
  · exact ⟨_, rfl, congrArg _ (schedulerTick_mapCursorSwitches Config.engine hg)⟩

end MapCursorSwitches

/-- Settles O53: the change of the switch word alone. -/
theorem engineStepsIgnoreTheLowSwitches : Obligations.EngineStepsIgnoreTheLowSwitches := fun _ w _ hw hi =>
  exec_mapCursorSwitches (f := id) (g := fun _ => w) hi hw

end Sys2Proof.Machine
end

section
/-! The scheduler (spec/42_scheduler.md R130 to R135): what a tick does in each of its three cases, and that a stopped
machine runs no engine cycle until a command starts or resets the engine. -/

namespace Sys2Proof.Machine

/-! ### The tick (spec/42_scheduler.md R133) -/

theorem exec_tick (s : State) : exec .tick s = .next (schedulerTick Config.engine s) := rfl

section TickGates

variable {s : State} (E : Engine)

theorem schedulerTick_of_not_pending (hnone : s.tp = false) : schedulerTick E s = s := by
  simp [schedulerTick, hnone]

theorem schedulerTick_of_idle (hpending : s.tp = true) (hidle : s.run = false) :
    schedulerTick E s = { s with tp := false } := by
  simp [schedulerTick, hpending, hidle]

theorem schedulerTick_of_running (hpending : s.tp = true) (hrunning : s.run = true) :
    schedulerTick E s = tickWork E { s with tp := false } := by
  simp [schedulerTick, hpending, hrunning]

end TickGates

/-- Settles O21: the tick's first gate is TP. -/
theorem tickNotPendingDoesNothing : Obligations.TickNotPendingDoesNothing := by
  intro s hnone
  rw [exec_tick, schedulerTick_of_not_pending _ hnone]

/-- Settles O7: with an empty queue the step looks at TP only. -/
theorem stepWithNoEventFiresThePendingTick : Obligations.StepWithNoEventFiresThePendingTick := by
  intro s hempty
  refine ⟨fun hpending => ?_, fun hnone => ?_⟩
  · simp [step, hempty, hpending]
  · simp [step, hempty, hnone]

/-- Settles O20: the tick's second gate is RUN; past it stand one engine slice, whose run is carried out transaction by
transaction, the refreshes, and the new tick. -/
theorem tickRunsOneSlice : Obligations.TickRunsOneSlice := by
  refine ⟨encodedOperationsDecodeBack .tick, fun s hpending hidle => ?_, fun s hpending hrunning => ?_⟩
  · rw [exec_tick, schedulerTick_of_idle _ hpending hidle]
  · refine ⟨_, busRun_runEngine _ _, ?_⟩
    rw [exec_tick, schedulerTick_of_running _ hpending hrunning, tickWork, engineSlice_eq]
    simp [memRead, memIndex, cpuText, memText, sliceCycles]

/-! ### After a stop (spec/42_scheduler.md R135) -/

@[simp] theorem engineSlice_inputs (E : Engine) (n : Nat) (s : State) :
    (refreshDebug E (refreshAfterStep E (engineStep E n s))).inputs = s.inputs := by simp [engineSlice_eq]

/-- No operation touches the events still to come. -/
theorem Effect.keeps_inputs {i : Instr} {s t : State} (h : Effect i s t) : t.inputs = s.inputs := by
  cases h with
  | examine | deposit => simp [refreshBoth_eq]
  | workingTick => simp [tickWork]
  | _ => simp

/-- A queued request that decodes stands for an operation the queue's condition holds of. -/
theorem onlyIf_request {p : Instr → Bool} {r : Request} {i : Instr} (hdec : decode r = .ok i)
    (h : (Input.request r).onlyIf p = true) : p i = true := by
  simpa only [Input.onlyIf, hdec] using h

/-- `StoppedSince s t`: since `s` the machine has stood still: no engine cycle has run, the machine does not run, no tick
has come to exist, and no waiting event starts or resets the engine. -/
structure StoppedSince (s t : State) : Prop where
  es : t.es = s.es
  run : t.run = false
  tp : s.tp = false → t.tp = false
  inputs : ∀ x ∈ t.inputs, x.onlyIf (fun i => !i.touchesEngine) = true

/-- The environment taking an event from the queue, or setting the switches, starts nothing. -/
theorem StoppedSince.of_queue {s t : State} (h : StoppedSince s t) {queue : List Input} (w : Addr)
    (hqueue : ∀ x ∈ queue, x ∈ t.inputs) : StoppedSince s { t with inputs := queue, sw := w } :=
  { h with inputs := fun x hx => h.inputs x (hqueue x hx) }

/-- An operation that does not touch the engine leaves a stopped machine stopped: the writers of ES, RUN and TP are the
operations that do, and a tick that finds RUN = 1. -/
theorem StoppedSince.exec {i : Instr} {s t u : State} (h : StoppedSince s t) (hi : i.touchesEngine = false)
    (hexec : Machine.exec i t = .next u) : StoppedSince s u := by
  have hes : u.es = t.es := by
    rcases writersOfTheEngineState i t u hexec with hes | rfl | rfl | ⟨rfl, -⟩ | ⟨-, -, hrunning⟩
    · exact hes
    · cases hi
    · cases hi
    · cases hi
    · rw [h.run] at hrunning
      cases hrunning
  obtain ⟨-, -, hstart, -, hschedule, -⟩ := writersOfTheFlags i t u hexec
  have hnotRun : i ≠ .run := by
    rintro rfl
    cases hi
  exact {
    es := hes.trans h.es
    run := Bool.eq_false_of_not_eq_true fun hrun => hnotRun (hstart h.run hrun)
    tp := fun hs => Bool.eq_false_of_not_eq_true fun htp => hnotRun (hschedule (h.tp hs) htp)
    inputs := (exec_effect hexec).keeps_inputs.symm ▸ h.inputs }

/-- A step leaves a stopped machine stopped: its operation is the tick or one the queue admits. -/
theorem StoppedSince.step {s t u : State} (h : StoppedSince s t) (hstep : Machine.step t = .next u) :
    StoppedSince s u := by
  rcases step_cases hstep with ⟨-, -, htick⟩ | ⟨-, -, rfl⟩ | ⟨w, rest, hin, rfl⟩ | ⟨r, rest, i, hin, hdec, hexec⟩
  · exact h.exec rfl htick
  · exact h
  · exact h.of_queue w fun x hx => by simp [hin, hx]
  · have hadmitted : (!i.touchesEngine) = true := onlyIf_request hdec (h.inputs (.request r) (by simp [hin]))
    have hrest : StoppedSince s { t with inputs := rest } := h.of_queue t.sw fun x hx => by simp [hin, hx]
    exact hrest.exec (by simpa using hadmitted) hexec

/-- Settles O59: a state with RUN = 0 and such a queue has stopped since itself, and every step of a run keeps that. -/
theorem noEngineCycleAfterStop : Obligations.NoEngineCycleAfterStop := by
  intro k s t hstopped hqueue hrun
  have h : StoppedSince s t :=
    runSteps_induction (fun _ _ hs hstep => hs.step hstep) ⟨rfl, hstopped, id, hqueue⟩ hrun
  exact ⟨h.es, h.run, h.tp⟩

end Sys2Proof.Machine
end

section
/-! The effects are what the operations do: the converse of `exec_effect`, so that an operation is run by naming its
effect. -/

namespace Sys2Proof.Machine

/-- An operation at a gate of `Ignored` changes nothing. -/
theorem Ignored.exec_eq {i : Instr} {s : State} (h : Ignored i s) : exec i s = .next s := by
  cases i with
  | pwron => exact congrArg _ (if_pos h)
  | step =>
    rcases panelStep_cases Config.engine s with ⟨-, hsame⟩ | ⟨hon, hidle, -⟩
    · exact congrArg _ hsame
    · exact absurd ⟨hon, hidle⟩ h
  | iow port v => exact congrArg _ (if_neg h)
  | tick => exact congrArg _ (schedulerTick_of_not_pending _ h)
  | reset | run | stop | exam | examnxt | dep | depnxt | load | loadhex => exact congrArg _ (whenPowered_off h)
  | reserved0 | reservedD | reservedE | reservedF => rfl
  | pwroff | memr | memw | ior => exact h.elim

/-- Each effect is what the operation does where its gate is met. -/
theorem Effect.exec_eq {i : Instr} {s t : State} (h : Effect i s t) : exec i s = .next t := by
  cases h with
  | unchanged hign => exact hign.exec_eq
  | pwron hoff => simp [exec, execPwron, panelPwron, hoff, emit, engineReset]
  | pwroff => rw [exec, execPwroff, panelPwroff, clearPanel_eq]
  | reset hon =>
    rw [exec, execReset, panelReset, whenPowered_on hon, refreshDebug_eq, flash_eq]
    simp [engineReset, cpuText, memText]
  | step hon hidle => simp [exec, execStep, panelStep, whenPowered_on hon, hidle]
  | run hon | stop hon => exact congrArg _ (whenPowered_on hon)
  | examine hi hon | deposit hi hon => rcases hi with ⟨rfl, rfl⟩ | ⟨rfl, rfl⟩ <;> exact congrArg _ (whenPowered_on hon)
  | load hi hon => rcases hi with ⟨bs, rfl, rfl⟩ | ⟨tx, rfl, rfl⟩ <;> exact congrArg _ (whenPowered_on hon)
  | reply hi => rcases hi with ⟨a, rfl, rfl⟩ | ⟨port, rfl, rfl⟩ <;> rfl
  | memw | iow => rfl
  | emptyTick hpending hidle => exact congrArg _ (schedulerTick_of_idle _ hpending hidle)
  | workingTick hpending hrunning => exact congrArg _ (schedulerTick_of_running _ hpending hrunning)

end Sys2Proof.Machine
end

section
/-! The front panel (spec/43_front_panel.md R140 to R151): the whole effect of each command, the power gate, and the
transition table. -/

namespace Sys2Proof.Machine

/-! ### Power, reset, run, stop, step -/

/-- Settles O23, by PWRON's two gates. -/
theorem pwronRefillsAndLights : Obligations.PwronRefillsAndLights :=
  ⟨encodedOperationsDecodeBack .pwron, fun _ => ⟨fun hon => Ignored.exec_eq hon, fun hoff => (Effect.pwron hoff).exec_eq⟩⟩

/-- Settles O24: PWROFF has no gate. -/
theorem pwroffClearsThePanel : Obligations.PwroffClearsThePanel :=
  ⟨encodedOperationsDecodeBack .pwroff, fun s => (Effect.pwroff s).exec_eq⟩

/-- Settles O25, by the power gate and RESET's effect behind it. -/
theorem resetRestartsAndFlashes : Obligations.ResetRestartsAndFlashes :=
  ⟨encodedOperationsDecodeBack .reset, fun _ hoff => Ignored.exec_eq hoff, fun _ hon => (Effect.reset hon).exec_eq⟩

/-- Settles O26, by the power gate and RUN's effect behind it. -/
theorem runCommandSchedulesOneTick : Obligations.RunCommandSchedulesOneTick :=
  ⟨encodedOperationsDecodeBack .run, fun _ hoff => Ignored.exec_eq hoff, fun _ hon => (Effect.run hon).exec_eq⟩

/-- Settles O27, by the power gate and STOP's effect behind it. -/
theorem stopClearsRunAndLightsWait : Obligations.StopClearsRunAndLightsWait :=
  ⟨encodedOperationsDecodeBack .stop, fun _ hoff => Ignored.exec_eq hoff, fun _ hon => (Effect.stop hon).exec_eq⟩

/-- Settles O28: past STEP's two gates stands one engine slice, whose run is carried out transaction by transaction,
with its refreshes. -/
theorem stepCommandRunsOneCycle : Obligations.StepCommandRunsOneCycle := by
  refine ⟨encodedOperationsDecodeBack .step, fun s hgate => ?_, fun s hon hidle => ?_⟩
  · have hign : Ignored .step s := by
      rintro ⟨hon, hidle⟩
      simp [hon, hidle] at hgate
    exact hign.exec_eq
  · refine ⟨_, busRun_runEngine _ _, ?_⟩
    rw [(Effect.step hon hidle).exec_eq, engineSlice_eq]
    simp [memRead, memIndex, cpuText, memText]

/-! ### Examine and deposit -/

/-- R147's `(LA + 1) mod 65536` on naturals is the 16-bit increment. -/
theorem eq_nextCursor_of_toNat {a la : Addr} (h : a.toNat = (la.toNat + 1) % 65536) : a = nextCursor la :=
  BitVec.eq_of_toNat_eq (by simp [nextCursor, h])

/-- R86's deposit byte as one condition: the low byte of the switch word, where a switch source is present. -/
theorem switchLow_eq (s : State) :
    switchLow s = if s.cfg.swPresent = true then s.sw.extractLsb' 0 8 else 0x00#8 := by
  cases hsource : s.cfg.swPresent <;> simp [switchLow, switchWord, hsource]

/-- Settles O29: behind the power gate the cursor goes to the switch word, and the refreshes show it. -/
theorem examLoadsTheCursorAndShowsIt : Obligations.ExamLoadsTheCursorAndShowsIt := by
  refine ⟨encodedOperationsDecodeBack .exam, fun _ hoff => Ignored.exec_eq hoff, fun s a hon ha => ?_⟩
  rw [(Effect.examine (.inl ⟨rfl, ha⟩) hon).exec_eq, refreshBoth_eq]
  rfl

/-- Settles O30: behind the power gate the cursor goes one on, and the refreshes show it. -/
theorem examnxtAdvancesTheCursorAndShowsIt : Obligations.ExamnxtAdvancesTheCursorAndShowsIt := by
  refine ⟨encodedOperationsDecodeBack .examnxt, fun _ hoff => Ignored.exec_eq hoff, fun s a hon ha => ?_⟩
  rw [(Effect.examine (.inr ⟨rfl, eq_nextCursor_of_toNat ha⟩) hon).exec_eq, refreshBoth_eq]
  rfl

/-- A deposit at `a`: every alias of `a` reads the deposit byte, and the refreshes show `a` and that byte. -/
theorem deposit_eq (E : Engine) (a : Addr) {s : State} (hwf : s.mem.wf = true) :
    let t := refreshDebug E (refreshPanel a (memWrite a.toNat (switchLow s) { s with la := a }))
    (∀ b : Nat, memRead t b = if b % s.cfg.size = a.toNat % s.cfg.size then switchLow s else memRead s b) ∧
      t = { s with
        la := a
        mem := t.mem
        aind := a
        dind := switchLow s
        dbgCpu := cpuText E s
        dbgMem := memText t
        trace := s.trace ++ [.aind a, .dind (switchLow s), .dbgCpu (cpuText E s), .dbgMem (memText t)] } := by
  have hread := fun b => memRead_memWrite { s with la := a } a.toNat (switchLow s) b hwf
  have hshown := (hread a.toNat).trans (if_pos rfl)
  rw [refreshBoth_eq, hshown]
  exact ⟨hread, rfl⟩

/-- Settles O31: a deposit at the cursor. -/
theorem depStoresAtTheCursor : Obligations.DepStoresAtTheCursor := by
  refine ⟨encodedOperationsDecodeBack .dep, fun _ hoff => Ignored.exec_eq hoff, fun s v hon hwf hv => ?_⟩
  obtain rfl : v = switchLow s := hv.trans (switchLow_eq s).symm
  exact ⟨_, (Effect.deposit (.inl ⟨rfl, rfl⟩) hon).exec_eq, deposit_eq Config.engine s.la hwf⟩

/-- Settles O32: a deposit at the next cursor. -/
theorem depnxtAdvancesThenStores : Obligations.DepnxtAdvancesThenStores := by
  refine ⟨encodedOperationsDecodeBack .depnxt, fun _ hoff => Ignored.exec_eq hoff, fun s a v hon hwf ha hv => ?_⟩
  obtain rfl : v = switchLow s := hv.trans (switchLow_eq s).symm
  exact ⟨_, (Effect.deposit (.inr ⟨rfl, eq_nextCursor_of_toNat ha⟩) hon).exec_eq, deposit_eq Config.engine a hwf⟩

/-! ### The power gate (spec/43_front_panel.md R151) -/

/-- Settles O33: STEP's gate contains the power gate, which is that of the other nine commands. -/
theorem powerGateIgnoresCommands : Obligations.PowerGateIgnoresCommands := by
  intro s a bytes text i hoff hi
  have hign : Ignored i s := by
    simp only [List.mem_cons, List.not_mem_nil, or_false] at hi
    rcases hi with rfl | rfl | rfl | rfl | rfl | rfl | rfl | rfl | rfl | rfl <;> simp [Ignored, hoff]
  exact hign.exec_eq

/-! ### The transition table (spec/43_front_panel.md R150) -/

/-- The protocol state as the values of its two flags (10_state.md R22). -/
theorem protocol_eq_some_iff {s : State} {p : Protocol} :
    protocol s = some p ↔ s.pwr = (p != .off) ∧ s.run = (p == .onRunning) := by
  cases hpwr : s.pwr <;> cases hrun : s.run <;> cases p <;> simp [protocol, hpwr, hrun]

/-- In a cell marked "ign" one of the operation's gates is shut. -/
theorem ignored_of_ignoredIn {i : Instr} {s : State} {p : Protocol} (hp : protocol s = some p)
    (hcell : ignoredIn i p = true) : Ignored i s := by
  obtain ⟨hpwr, hrun⟩ := protocol_eq_some_iff.mp hp
  cases i with
  | pwron => exact hpwr.trans hcell
  | step =>
    rintro ⟨hon, hidle⟩
    cases p with
    | off => cases hon.symm.trans hpwr
    | onIdle => cases hcell
    | onRunning => cases hidle.symm.trans hrun
  | reset | run | stop | exam | examnxt | dep | depnxt | load | loadhex =>
    cases eq_of_beq hcell
    exact hpwr
  | reserved0 | reservedD | reservedE | reservedF => trivial
  | pwroff | memr | memw | ior | iow | tick => cases hcell

/-- At a shut gate the table's cell is the state itself. -/
theorem nextProtocol_of_ignored {i : Instr} {s : State} {p : Protocol} (hp : protocol s = some p)
    (hign : Ignored i s) : nextProtocol i p = p := by
  obtain ⟨hpwr, -⟩ := protocol_eq_some_iff.mp hp
  cases i with
  | pwron =>
    cases p with
    | off => cases hign.symm.trans hpwr
    | onIdle | onRunning => rfl
  | reset | run | stop =>
    cases p with
    | off => rfl
    | onIdle | onRunning => cases hign.symm.trans hpwr
  | pwroff => exact hign.elim
  | _ => rfl

/-- A powered machine is in ON_IDLE or ON_RUNNING. -/
theorem ne_off_of_powered {s : State} {p : Protocol} (hp : protocol s = some p) (hon : s.pwr = true) : p ≠ .off := by
  rintro rfl
  cases hon.symm.trans (protocol_eq_some_iff.mp hp).1

/-- The protocol state goes with PWR and RUN. -/
theorem protocol_congr {s t : State} (hpwr : t.pwr = s.pwr) (hrun : t.run = s.run) : protocol t = protocol s := by
  rw [protocol, protocol, hpwr, hrun]

/-- Every operation leads to the table's cell. -/
theorem Effect.protocol_eq {i : Instr} {s t : State} {p : Protocol} (h : Effect i s t) (hp : protocol s = some p) :
    protocol t = some (nextProtocol i p) := by
  cases h with
  | unchanged hign => rw [nextProtocol_of_ignored hp hign, hp]
  | pwron hoff =>
    obtain ⟨hpwr, hrun⟩ := protocol_eq_some_iff.mp hp
    cases p with
    | off => simp [protocol_eq_some_iff, nextProtocol, hrun]
    | onIdle | onRunning => cases hoff.symm.trans hpwr
  | pwroff => rfl
  | reset hon | run hon | stop hon =>
    cases p with
    | off => cases ne_off_of_powered hp hon rfl
    | onIdle | onRunning => simp [protocol_eq_some_iff, nextProtocol, hon]
  | step => exact (protocol_congr (by simp) (by simp)).trans hp
  | examine hi | deposit hi =>
    rw [refreshBoth_eq]
    rcases hi with ⟨rfl, -⟩ | ⟨rfl, -⟩ <;> exact hp
  | load hi => rcases hi with ⟨bs, rfl, -⟩ | ⟨tx, rfl, -⟩ <;> exact hp
  | reply hi => rcases hi with ⟨a, rfl, -⟩ | ⟨port, rfl, -⟩ <;> exact hp
  | memw | iow | emptyTick => exact hp
  | workingTick => exact (protocol_congr (by simp [tickWork]) (by simp [tickWork])).trans hp

/-- A tick that was pending leaves another exactly while running. -/
theorem Effect.tick_tp {s t : State} (h : Effect .tick s t) (hpending : s.tp = true) : t.tp = s.run := by
  cases h with
  | unchanged hnone => cases hpending.symm.trans hnone
  | emptyTick _ hidle => exact hidle.symm
  | workingTick _ hrunning => exact hrunning.symm
  | examine hi | deposit hi | load hi | reply hi => simp at hi

/-- Settles O51: the cell by the operation's effect, the "ign" cells by its gates, and the pending tick by whether it
found RUN = 1. -/
theorem transitionTable : Obligations.TransitionTable := by
  intro i s p hp
  obtain ⟨t, hexec, heff⟩ := exec_next_effect i s
  refine ⟨t, hexec, heff.protocol_eq hp, fun hcell => ?_, ?_⟩
  · cases hexec.symm.trans (ignored_of_ignoredIn hp hcell).exec_eq
    rfl
  · rintro rfl hpending
    rw [heff.tick_tp hpending, (protocol_eq_some_iff.mp hp).2, beq_iff_eq]

end Sys2Proof.Machine
end

section
/-! The tokens of LOADHEX (spec/44_bulk_load.md R163): white space, the hex digits of either case, and the number a
token denotes. -/

namespace Sys2Proof.Machine

/-! ### Hex digits -/

/-- The characters a valid token is made of. -/
def hexDigits : Text := "0123456789abcdefABCDEF".toList

/-- The value of a digit: its place among the lower-case digits. -/
def digitIndex (c : Char) : Nat := "0123456789abcdef".toList.idxOf c.toLower

theorem hexDigitValue_of_mem : ∀ c ∈ hexDigits, hexDigitValue c = some (digitIndex c) :=
  List.map_inj_left.mp (by decide)

/-- A character with a value is ASCII, and the value is that of a digit. -/
theorem hexDigitValue_bounds {c : Char} {x : Nat} (h : hexDigitValue c = some x) : c.toNat < 103 ∧ x < 16 := by
  unfold hexDigitValue at h
  split_ifs at h <;> cases h <;> omega

/-- Only digits have a value. -/
theorem mem_hexDigits_of_hexDigitValue {c : Char} {x : Nat} (h : hexDigitValue c = some x) : c ∈ hexDigits := by
  have hascii : ∀ n < 103, (hexDigitValue (Char.ofNat n)).isSome = true → Char.ofNat n ∈ hexDigits := by decide
  simpa using hascii c.toNat (hexDigitValue_bounds h).1 (by simp [h])

theorem digitIndex_lt {c : Char} (h : c ∈ hexDigits) : digitIndex c < 16 :=
  (hexDigitValue_bounds (hexDigitValue_of_mem c h)).2

/-! ### Tokens -/

theorem isWhitespace_iff (c : Char) : isWhitespace c = true ↔ c = ' ' ∨ c = '\t' ∨ c = '\n' ∨ c = '\r' := by
  simp [isWhitespace, ← Char.toNat_inj, or_assoc]

/-- `Valid(t)` of R163. -/
def IsHexToken (t : Text) : Prop := (t.length = 1 ∨ t.length = 2) ∧ ∀ c ∈ t, c ∈ hexDigits

/-- The number a text of digits denotes in base 16, most significant digit first. -/
def hexNumber (t : Text) : Nat := t.foldl (fun n c => 16 * n + digitIndex c) 0

/-- A valid token is one digit or two. -/
theorem IsHexToken.one_or_two_digits {t : Text} (ht : IsHexToken t) :
    (∃ c ∈ hexDigits, t = [c]) ∨ ∃ c ∈ hexDigits, ∃ d ∈ hexDigits, t = [c, d] := by
  obtain ⟨hlen | hlen, hdigits⟩ := ht
  · obtain ⟨c, rfl⟩ := List.length_eq_one_iff.mp hlen
    exact .inl ⟨c, by simpa using hdigits, rfl⟩
  · obtain ⟨c, d, rfl⟩ := List.length_eq_two.mp hlen
    exact .inr (by simpa using hdigits)

/-- The byte of a valid token is its number, which fits. -/
theorem IsHexToken.tokenByte_eq {t : Text} (ht : IsHexToken t) :
    tokenByte t = some (BitVec.ofNat 8 (hexNumber t)) ∧ hexNumber t < 256 := by
  rcases ht.one_or_two_digits with ⟨c, hc, rfl⟩ | ⟨c, hc, d, hd, rfl⟩
  · have hlt := digitIndex_lt hc
    exact ⟨by simp [tokenByte, hexNumber, hexDigitValue_of_mem c hc], by simp only [hexNumber, List.foldl]; omega⟩
  · have hclt := digitIndex_lt hc
    have hdlt := digitIndex_lt hd
    exact ⟨by simp [tokenByte, hexNumber, hexDigitValue_of_mem c hc, hexDigitValue_of_mem d hd],
      by simp only [hexNumber, List.foldl]; omega⟩

/-- A token with a byte is valid. -/
theorem isHexToken_of_tokenByte {t : Text} {v : Byte} (h : tokenByte t = some v) : IsHexToken t := by
  unfold tokenByte at h
  split at h
  · obtain ⟨x, hx, -⟩ := Option.map_eq_some_iff.mp h
    simp [IsHexToken, mem_hexDigits_of_hexDigitValue hx]
  · split at h
    · rename_i hx hy
      simp [IsHexToken, mem_hexDigits_of_hexDigitValue hx, mem_hexDigits_of_hexDigitValue hy]
    · cases h
  · cases h

/-- Settles O38: the tokens by the runs of characters read (as for a memory row's, O44), the validity and the number by
the digits of a token of one or two characters. -/
theorem tokensValidityAndValue : Obligations.TokensValidityAndValue := by
  refine ⟨isWhitespace_iff, rfl, fun _ text hw => tokens_whitespace_cons hw text,
    fun _ hne hrun => IsToken.tokens_self ⟨hne, hrun⟩,
    fun _ _ text hne hrun hw => IsToken.tokens_append_cons ⟨hne, hrun⟩ hw text,
    fun t => ⟨fun h => ?_, fun ht => ?_⟩, fun t v h => ?_⟩
  · obtain ⟨v, hv⟩ := Option.isSome_iff_exists.mp h
    exact isHexToken_of_tokenByte hv
  · rw [(IsHexToken.tokenByte_eq ht).1]
    rfl
  · obtain ⟨hbyte, hlt⟩ := (isHexToken_of_tokenByte h).tokenByte_eq
    cases hbyte.symm.trans h
    exact Nat.mod_eq_of_lt hlt

end Sys2Proof.Machine
end

section
/-! The bulk loaders (spec/44_bulk_load.md R160 to R162): what each leaves at every index of MEM, and LOAD as a session
of deposits at the front panel. -/

namespace Sys2Proof.Machine

/-! ### What a load leaves -/

/-- A powered machine loads each slot's byte, and changes nothing but MEM. -/
theorem exec_loader {i : Instr} {s : State} {a : Addr} {slots : List (Option Byte)}
    (hi : (∃ bs, i = .load a bs ∧ slots = bs.map some) ∨
      (∃ tx, i = .loadhex a tx ∧ slots = (tokens tx).map tokenByte))
    (hon : s.pwr = true) (hwf : s.mem.wf = true) :
    ∃ t, exec i s = .next t ∧ t = { s with mem := t.mem } ∧
      ∀ x : Nat, Memory.read t.mem x =
        if a.toNat ≤ x ∧ x < s.cfg.size then (slots[x - a.toNat]?.join).getD (Memory.read s.mem x)
        else Memory.read s.mem x :=
  ⟨_, (Effect.load hi hon).exec_eq, rfl, Memory.read_storeSlots s.cfg.size a.toNat slots hwf⟩

/-- Settles O34: every slot of LOAD has its byte. -/
theorem loadWritesWithoutWrapping : Obligations.LoadWritesWithoutWrapping := by
  intro s address bytes
  refine ⟨decode_loadRequest address bytes, fun hoff => Ignored.exec_eq hoff, fun hon hwf => ?_⟩
  obtain ⟨t, hexec, hframe, hread⟩ := exec_loader (.inl ⟨bytes, rfl, rfl⟩) hon hwf
  refine ⟨t, hexec, hframe, fun x => ?_⟩
  have hslot : ((bytes.map some)[x - address.toNat]?).join = bytes[x - address.toNat]? := by
    rw [List.getElem?_map, ← Option.bind_id_eq_join, Option.bind_map, Function.id_comp, Option.bind_fun_some]
  rw [hread, hslot]
  by_cases hx : address.toNat ≤ x ∧ x < address.toNat + bytes.length ∧ x < s.cfg.size
  · obtain ⟨hle, hlt, hsize⟩ := hx
    have hi : x - address.toNat < bytes.length := by omega
    simp [hle, hlt, hsize, hi]
  · rw [if_neg hx]
    split
    · have hi : bytes.length ≤ x - address.toNat := by omega
      rw [List.getElem?_eq_none hi, Option.getD_none]
    · rfl

/-- Settles O35: the slots of LOADHEX are its tokens' bytes. -/
theorem loadhexPlacesTokensAtTheirSlots : Obligations.LoadhexPlacesTokensAtTheirSlots := by
  intro s address text
  refine ⟨decode_loadhexRequest address text, fun hoff => Ignored.exec_eq hoff, fun hon hwf => ?_⟩
  obtain ⟨t, hexec, hframe, hread⟩ := exec_loader (.inr ⟨text, rfl, rfl⟩) hon hwf
  refine ⟨t, hexec, hframe, fun x => ?_⟩
  rw [hread, List.getElem?_map, ← Option.bind_id_eq_join, Option.bind_map, Function.id_comp]

/-! ### The session of deposits (spec/44_bulk_load.md R161) -/

/-- Two steps of the session: the switch word is set, then a command runs by its effect. -/
theorem runSteps_switches_request {s t : State} {w : Addr} {i : Instr} {rest : List Input}
    (hin : s.inputs = .switches w :: .request (encode i) :: rest) (heff : Effect i { s with inputs := rest, sw := w } t)
    (k : Nat) : runSteps (k + 2) s = runSteps k t := by
  have hexec : step { s with inputs := .request (encode i) :: rest, sw := w } = .next t :=
    (step_of_request rfl (encodedOperationsDecodeBack i)).trans heff.exec_eq
  rw [runSteps_succ (stepTakesASwitchChange s w _ hin), runSteps_succ hexec]

/-- `AtCursor c m a queue s`: a powered machine with a switch source, of configuration `c`, with memory `m`, the cursor
at `a` and the events `queue` to come. -/
structure AtCursor (c : Cfg) (m : Memory) (a : Nat) (queue : List Input) (s : State) : Prop where
  pwr : s.pwr = true
  cfg : s.cfg = c
  source : c.swPresent = true
  mem : s.mem = m
  la : s.la.toNat = a
  inputs : s.inputs = queue

/-- SW address, EXAM: the cursor goes to the address. -/
theorem AtCursor.exam {c : Cfg} {m : Memory} {a : Nat} {w : Addr} {rest : List Input} {s : State}
    (h : AtCursor c m a (.switches w :: .request (encode .exam) :: rest) s) :
    ∃ t, (∀ k, runSteps (k + 2) s = runSteps k t) ∧ AtCursor c m w.toNat rest t := by
  have hw : w = switchWord { s with inputs := rest, sw := w } := by simp [switchWord, h.cfg, h.source]
  refine ⟨_, runSteps_switches_request h.inputs (.examine (.inl ⟨rfl, hw⟩) h.pwr), ?_⟩
  rw [refreshBoth_eq]
  exact ⟨h.pwr, h.cfg, h.source, h.mem, rfl, rfl⟩

/-- SW byte, then DEP or DEPNXT: the byte is stored at the cursor, which DEPNXT has moved. -/
theorem AtCursor.deposit {c : Cfg} {m : Memory} {a : Nat} {v : Byte} {i : Instr} {rest : List Input} {s : State}
    (h : AtCursor c m a (.switches (v.zeroExtend 16) :: .request (encode i) :: rest) s) {a' : Addr}
    (hi : (i = .dep ∧ a' = s.la) ∨ (i = .depnxt ∧ a' = nextCursor s.la)) (hfit : a'.toNat < c.size) :
    ∃ t, (∀ k, runSteps (k + 2) s = runSteps k t) ∧ AtCursor c (Memory.write m a'.toNat v) a'.toNat rest t := by
  have hbyte : switchLow { s with inputs := rest, sw := v.zeroExtend 16 } = v := by
    rw [switchLow_eq, h.cfg, if_pos h.source]
    exact BitVec.eq_of_toNat_eq (by simp [v.isLt])
  refine ⟨_, runSteps_switches_request h.inputs (.deposit hi h.pwr), ?_⟩
  rw [refreshBoth_eq, hbyte]
  refine ⟨h.pwr, h.cfg, h.source, ?_, rfl, rfl⟩
  simp [h.mem, h.cfg, memIndex, Nat.mod_eq_of_lt hfit]

/-- The session's events after the first byte: SW byte, DEPNXT for each. -/
def depnxtScript (bs : List Byte) : List Input :=
  bs.flatMap fun v => [.switches (v.zeroExtend 16), .request (encode .depnxt)]

/-- The bytes after the first go to the indices after the cursor, in order. -/
theorem AtCursor.depnxts {c : Cfg} {m : Memory} {a : Nat} {bs : List Byte} {rest : List Input} {s : State}
    (h : AtCursor c m a (depnxtScript bs ++ rest) s) (hfit : a + bs.length < c.size) :
    ∃ t, runSteps (depnxtScript bs).length s = .next t ∧
      AtCursor c (Memory.storeSlots c.size (a + 1) (bs.map some) m) (a + bs.length) rest t := by
  induction bs generalizing m a s with
  | nil => exact ⟨s, rfl, h⟩
  | cons v bs ih =>
    rw [List.length_cons] at hfit
    have hnext : (nextCursor s.la).toNat = a + 1 := by
      have := Cfg.size_le c
      rw [nextCursor, BitVec.toNat_add, h.la, BitVec.toNat_ofNat]
      omega
    obtain ⟨t, hpair, ht⟩ := AtCursor.deposit h (.inr ⟨rfl, rfl⟩) (by omega)
    rw [hnext] at ht
    obtain ⟨u, hrun, hu⟩ := ih ht (by omega)
    refine ⟨u, (hpair _).trans hrun, ?_⟩
    rwa [List.map_cons, Memory.storeSlots, if_pos (by omega), List.length_cons, Nat.add_comm bs.length,
      ← Nat.add_assoc]

/-- The whole session, where the bytes fit: the load's writes, and the cursor at the last byte. -/
theorem AtCursor.deposits {c : Cfg} {m : Memory} {a : Nat} {address : Addr} {bytes : List Byte}
    {rest : List Input} {s : State} (h : AtCursor c m a (depositScript address bytes ++ rest) s)
    (hfit : address.toNat + bytes.length ≤ c.size) :
    ∃ t, runSteps (depositScript address bytes).length s = .next t ∧
      AtCursor c (Memory.storeSlots c.size address.toNat (bytes.map some) m) (address.toNat + (bytes.length - 1))
        rest t := by
  obtain ⟨t, hexam, ht⟩ : ∃ t, (∀ k, runSteps (k + 2) s = runSteps k t) ∧
      AtCursor c m address.toNat ((depositScript address bytes).drop 2 ++ rest) t := by
    cases bytes <;> exact AtCursor.exam h
  cases bytes with
  | nil => exact ⟨t, hexam 0, ht⟩
  | cons b bs =>
    rw [List.length_cons] at hfit
    obtain ⟨u, hdep, hu⟩ := ht.deposit (.inl ⟨rfl, rfl⟩) (by rw [ht.la]; omega)
    rw [ht.la] at hu
    obtain ⟨v, hrun, hv⟩ := AtCursor.depnxts (bs := bs) hu (by omega)
    refine ⟨v, (hexam _).trans ((hdep _).trans hrun), ?_⟩
    rwa [List.map_cons, Memory.storeSlots, if_pos (by omega)]

/-- Settles O37: the session leaves the writes of the load, whose effect they are. -/
theorem loadEqualsDeposits : Obligations.LoadEqualsDeposits := by
  intro s address bytes rest hon hsource hfit hin
  have hs : AtCursor s.cfg s.mem s.la.toNat (depositScript address bytes ++ rest) s :=
    ⟨hon, rfl, hsource, rfl, rfl, hin⟩
  obtain ⟨t, hrun, ht⟩ := hs.deposits hfit
  exact ⟨t, _, hrun, (Effect.load (.inl ⟨bytes, rfl, rfl⟩) hon).exec_eq, ht.mem, rfl, ht.inputs, ht.la⟩

end Sys2Proof.Machine
end

section
/-! Totality, the engine's reach and the inertness of OFF (spec/60_exceptions.md R170, R180, R185). -/

namespace Sys2Proof.Machine

/-! ### Totality (spec/60_exceptions.md R170) -/

/-- Settles O10: every operation has an effect. -/
theorem everyOperationYieldsANextState : Obligations.EveryOperationYieldsANextState := by
  intro i s
  obtain ⟨t, hexec, -⟩ := exec_next_effect i s
  exact ⟨t, hexec⟩

/-- Settles O11: with no event waiting the step ticks or rests (O7), a well-formed request
decodes (O2) to an operation, which has a next state (O10), and a switch change is taken (O6). -/
theorem stepOnWellFormedEventsYieldsANextState : Obligations.StepOnWellFormedEventsYieldsANextState := by
  intro s hwf
  rcases hin : s.inputs with _ | ⟨r | w, rest⟩
  · obtain ⟨hpending, hnone⟩ := stepWithNoEventFiresThePendingTick s hin
    cases htp : s.tp with
    | true => rw [hpending htp]; exact everyOperationYieldsANextState .tick s
    | false => exact ⟨s, hnone htp⟩
  · obtain ⟨i, hdec, -⟩ := wellFormedRequestsDecode r (hwf r (by simp [hin]))
    rw [step_of_request hin hdec]
    exact everyOperationYieldsANextState i _
  · exact ⟨_, stepTakesASwitchChange s w rest hin⟩

/-! ### What an engine can reach (spec/60_exceptions.md R180) -/

/-- Settles O19: a run ends where the machine's loop ends (O18), of which each part is a law. -/
theorem busRunTouchesOnlyMemoryAndOutput : Obligations.BusRunTouchesOnlyMemoryAndOutput := by
  intro r s t hrun
  rw [hrun.eq_runEngine]
  exact ⟨runEngine_frame r s, runEngine_out r s, runEngine_wf r s, runEngine_below r s⟩

/-! ### OFF (spec/60_exceptions.md R185) -/

/-- An event from outside the controller stands for no bus transaction. -/
theorem isBus_of_wellFormed_input {r : Request} {i : Instr} (hdec : decode r = .ok i)
    (hwf : (Input.request r).wellFormed = true) : i.isBus = false := by
  simp only [Input.wellFormed, Bool.and_eq_true, Bool.not_eq_true'] at hwf
  obtain ⟨hform, houtside⟩ := hwf
  obtain ⟨j, hj, -, hbus⟩ := wellFormedRequestsDecode r hform
  cases hdec.symm.trans hj
  exact hbus.trans houtside

/-- In OFF an operation other than PWRON and the bus transactions can clear TP and append to the trace, and no more: the
gates shut out the others, and PWROFF darkens a panel that is dark already (INV3). -/
theorem Effect.inert_of_off {i : Instr} {s t : State} (h : Effect i s t) (hs : s.Inv) (hoff : s.pwr = false)
    (hi : i ≠ .pwron) (hbus : i.isBus = false) :
    t = { s with tp := t.tp, trace := t.trace } ∧ (t.tp = true → s.tp = true) := by
  cases h with
  | unchanged => exact ⟨rfl, id⟩
  | pwron => exact absurd rfl hi
  | pwroff =>
    obtain ⟨haind, hdind, hwait, hstat, hcpu, hmem⟩ := hs.off_dark hoff
    have hrun : s.run = false := Bool.eq_false_of_not_eq_true fun hr => by
      cases hoff.symm.trans (hs.running_powered hr)
    exact ⟨by simp only [haind, hdind, hwait, hstat, hcpu, hmem, hrun, hoff], id⟩
  | reset hon | run hon | stop hon | step hon | examine _ hon | deposit _ hon | load _ hon =>
    cases hoff.symm.trans hon
  | reply hi => rcases hi with ⟨a, rfl, -⟩ | ⟨port, rfl, -⟩ <;> cases hbus
  | memw | iow => cases hbus
  | emptyTick => exact ⟨rfl, nofun⟩
  | workingTick _ hrunning => cases hoff.symm.trans (hs.running_powered hrunning)

/-- `InertSince s t`: since `s`, in OFF, nothing has changed but SW, the queue, the trace and TP, which can only
have been cleared; and no waiting event is PWRON or a bus transaction. -/
structure InertSince (s t : State) : Prop where
  inv : t.Inv
  off : t.pwr = false
  frame : t = { s with tp := t.tp, sw := t.sw, inputs := t.inputs, trace := t.trace }
  tp : t.tp = true → s.tp = true
  inputs : ∀ x ∈ t.inputs, x.wellFormed = true ∧ x.onlyIf (fun i => decide (i ≠ .pwron)) = true

/-- The environment taking an event from the queue, or setting the switches, has no other effect. -/
theorem InertSince.of_queue {s t : State} (h : InertSince s t) {queue : List Input} (w : Addr)
    (hqueue : ∀ x ∈ queue, x ∈ t.inputs) : InertSince s { t with inputs := queue, sw := w } where
  inv := { h.inv with }
  off := h.off
  frame := by rw [h.frame]
  tp := h.tp
  inputs x hx := h.inputs x (hqueue x hx)

/-- An operation other than PWRON and the bus transactions has no further effect on an inert machine. -/
theorem InertSince.exec {i : Instr} {s t u : State} (h : InertSince s t) (hi : i ≠ .pwron) (hbus : i.isBus = false)
    (hexec : Machine.exec i t = .next u) : InertSince s u := by
  have heff := exec_effect hexec
  obtain ⟨hframe, htp⟩ := heff.inert_of_off h.inv h.off hi hbus
  exact {
    inv := heff.keeps_inv h.inv
    off := by rw [hframe]; exact h.off
    frame := by rw [hframe, h.frame]
    tp := fun hu => h.tp (htp hu)
    inputs := heff.keeps_inputs.symm ▸ h.inputs }

/-- A step leaves an inert machine inert: its operation is the tick or one the queue admits. -/
theorem InertSince.step {s t u : State} (h : InertSince s t) (hstep : Machine.step t = .next u) : InertSince s u := by
  rcases step_cases hstep with ⟨-, -, htick⟩ | ⟨-, -, rfl⟩ | ⟨w, rest, hin, rfl⟩ | ⟨r, rest, i, hin, hdec, hexec⟩
  · exact h.exec (i := .tick) nofun rfl htick
  · exact h
  · exact h.of_queue w fun x hx => by simp [hin, hx]
  · obtain ⟨hwf, hadmitted⟩ := h.inputs (.request r) (by simp [hin])
    have hrest : InertSince s { t with inputs := rest } := h.of_queue t.sw fun x hx => by simp [hin, hx]
    exact hrest.exec (of_decide_eq_true (onlyIf_request hdec hadmitted)) (isBus_of_wellFormed_input hdec hwf) hexec

/-- Settles O60: a state in OFF with such a queue is inert since itself, and every step of a run keeps that. -/
theorem offIsInert : Obligations.OffIsInert := by
  intro k s t hs hoff hqueue hrun
  have h : InertSince s t :=
    runSteps_induction (fun _ _ hs hstep => hs.step hstep) ⟨hs, hoff, rfl, id, hqueue⟩ hrun
  exact ⟨h.frame, h.tp⟩

end Sys2Proof.Machine
end

section
/-! The state construction leaves, and the cursor as seen by the engine's steps (spec/70_reset_and_hazards.md R190,
R205). -/

namespace Sys2Proof.Machine

/-- Settles O52: the change of the cursor alone, which keeps the switch word, commutes with STEP and TICK. -/
theorem engineStepsIgnoreTheCursor : Obligations.EngineStepsIgnoreTheCursor := fun _ a _ hi =>
  exec_mapCursorSwitches (f := fun _ => a) (g := id) hi rfl

/-- Settles O54: each field, and OFF from the flags PWR and RUN, is read off `State.construct`. -/
theorem constructionState : Obligations.ConstructionState :=
  ⟨rfl, rfl, rfl, rfl, rfl, rfl, rfl, rfl, rfl, rfl, rfl, rfl, rfl, rfl, rfl, rfl⟩

end Sys2Proof.Machine
end
